-- ==== Sys2Proof/Word.lean ====
section
/-! DEFINITION. The word, character and unit-name types of the MoveCodec block. -/

namespace Sys2Proof

/-- One character of a token: `CHAR_W` = 8 bits, its ASCII code (R4, R45, D6; log entry 9). -/
abbrev Byte := BitVec 8

/-- A finite sequence of characters (R9, D13; log entry 14). -/
abbrev Chars := List Byte

/-- One hexadecimal digit's worth of a word. -/
abbrev Nibble := BitVec 4

/-- A word of format W12 (R30). -/
abbrev Word12 := BitVec 12

/-- A word of format W16 (R32). -/
abbrev Word16 := BitVec 16

/-- The parity-protected payload `word16[15:1]` (R4, R32). -/
abbrev Payload := BitVec 15

/-- The sixteen operations by name, in the order of the table of R39. -/
inductive Op where
  | hexr3 | hexr4 | hexp3 | hexp4
  | pack12 | unpack12 | encode12 | decode12 | decodebatch12
  | picknorm | par15 | pack16 | pickdenorm | unpack16 | encode16 | decode16
deriving DecidableEq, Repr

end Sys2Proof
end

