-- ==== Sys2Proof/Syntax.lean ====
section
/-! DEFINITION. The sixteen operations with their operands: one constructor for each row of spec/opcode_table.json, its
arguments the unit's input ports (R15) in the order of R39's table. -/

namespace Sys2Proof

/-- One application of one operation to definite operands (R11, R39). Encode operands are mathematical integers (R6). -/
inductive Instr where
  /-- HEXR3 (R47): `word_i`. -/
  | hexr3 (w : Word12)
  /-- HEXR4 (R48): `word_i`. -/
  | hexr4 (w : Word16)
  /-- HEXP3 (R49): `chars_i`. -/
  | hexp3 (chars : Chars)
  /-- HEXP4 (R50): `chars_i`. -/
  | hexp4 (chars : Chars)
  /-- PACK12 (R55): `pick_i`, `dest_i`, `status_i`. -/
  | pack12 (pick destination status : Int)
  /-- UNPACK12 (R56): `word12_i`. -/
  | unpack12 (w : Word12)
  /-- ENCODE12 (R58): the operands of PACK12. -/
  | encode12 (pick destination status : Int)
  /-- DECODE12 (R59): the token. -/
  | decode12 (chars : Chars)
  /-- DECODEBATCH12 (R61): the concatenated tokens. -/
  | decodebatch12 (chars : Chars)
  /-- PICKNORM (R65): `roll1_i`, `roll2_i`, `pick_i`. -/
  | picknorm (roll1 roll2 pick : Int)
  /-- PAR15 (R67): `payload_i`. -/
  | par15 (payload : Payload)
  /-- PACK16 (R69): `roll1_i`, `roll2_i`, `pick_i`, `dest_i`. -/
  | pack16 (roll1 roll2 pick destination : Int)
  /-- PICKDENORM (R72): `code_i`, `roll1_i`, `roll2_i`. -/
  | pickdenorm (code : BitVec 2) (roll1 roll2 : BitVec 3)
  /-- UNPACK16 (R73): `word16_i`. -/
  | unpack16 (w : Word16)
  /-- ENCODE16 (R75): the operands of PACK16. -/
  | encode16 (roll1 roll2 pick destination : Int)
  /-- DECODE16 (R76): the token. -/
  | decode16 (chars : Chars)
deriving DecidableEq, Repr

/-- The unit or composite an application drives. -/
def Instr.op : Instr → Op
  | .hexr3 _ => .hexr3
  | .hexr4 _ => .hexr4
  | .hexp3 _ => .hexp3
  | .hexp4 _ => .hexp4
  | .pack12 _ _ _ => .pack12
  | .unpack12 _ => .unpack12
  | .encode12 _ _ _ => .encode12
  | .decode12 _ => .decode12
  | .decodebatch12 _ => .decodebatch12
  | .picknorm _ _ _ => .picknorm
  | .par15 _ => .par15
  | .pack16 _ _ _ _ => .pack16
  | .pickdenorm _ _ _ => .pickdenorm
  | .unpack16 _ => .unpack16
  | .encode16 _ _ _ _ => .encode16
  | .decode16 _ => .decode16

end Sys2Proof
end

