-- ==== Sys2Proof/Decode.lean ====
section
/-! DEFINITION. How an application is read from the characters the caller presents, and written to them. The spec has no
instruction word and no opcode bits (R39, D15), so this layout is the model's own: log entry 1. One application is a
unit number (its row in R39's table, from 0), then the unit's input ports in order:
* a word of more than 8 bits is two characters, the low eight bits first; a narrower field is one character, and the
  bits above the port's width are 0 (R15: a wider value cannot be presented);
* an integer is its two's complement value in groups of seven bits, lowest group first, bit 7 set on every character
  but the last, bit 6 of the last the sign: a port of `IN_W` = 7k bits for any k (R15, D3);
* a character sequence is its length, in groups of seven bits in the same way but unsigned, then its characters. -/

namespace Sys2Proof

/-- Why no application can be read (log entry 4). -/
inductive DecodeError where
  /-- Nothing is presented (R101). -/
  | nothingPresented
  /-- No unit has this number (R39 lists sixteen). -/
  | unknownUnit (number : Byte)
  /-- The operands end before every port is driven (R101). -/
  | operandMissing
  /-- A value wider than its port (R15). -/
  | operandTooWide
deriving DecidableEq, Repr

/-! ## Reading -/

/-- The unit with a given number. -/
def Op.ofNumber (n : Nat) : Option Op :=
  match n with
  | 0 => some .hexr3
  | 1 => some .hexr4
  | 2 => some .hexp3
  | 3 => some .hexp4
  | 4 => some .pack12
  | 5 => some .unpack12
  | 6 => some .encode12
  | 7 => some .decode12
  | 8 => some .decodebatch12
  | 9 => some .picknorm
  | 10 => some .par15
  | 11 => some .pack16
  | 12 => some .pickdenorm
  | 13 => some .unpack16
  | 14 => some .encode16
  | 15 => some .decode16
  | _ => none

/-- A port of `n ≤ 8` bits. -/
def takeNarrow (n : Nat) : List Byte → Except DecodeError (BitVec n × List Byte)
  | b :: rest => if b.toNat < 2 ^ n then .ok (BitVec.ofNat n b.toNat, rest) else .error .operandTooWide
  | [] => .error .operandMissing

/-- A port of `8 < n ≤ 16` bits, low eight bits first. -/
def takeWide (n : Nat) : List Byte → Except DecodeError (BitVec n × List Byte)
  | lo :: hi :: rest =>
      if lo.toNat + 256 * hi.toNat < 2 ^ n then .ok (BitVec.ofNat n (lo.toNat + 256 * hi.toNat), rest)
      else .error .operandTooWide
  | _ => .error .operandMissing

/-- The two's complement value of the low seven bits of a character. -/
def signed7 (n : Nat) : Int := if n % 128 < 64 then (n % 128 : Nat) else ((n % 128 : Nat) : Int) - 128

/-- An integer port. -/
def takeInt : List Byte → Except DecodeError (Int × List Byte)
  | [] => .error .operandMissing
  | b :: rest =>
      if b.toNat < 128 then .ok (signed7 b.toNat, rest)
      else match takeInt rest with
        | .ok (v, rest') => .ok (v * 128 + ((b.toNat - 128 : Nat) : Int), rest')
        | .error e => .error e

/-- The length of a character sequence. -/
def takeLength : List Byte → Except DecodeError (Nat × List Byte)
  | [] => .error .operandMissing
  | b :: rest =>
      if b.toNat < 128 then .ok (b.toNat, rest)
      else match takeLength rest with
        | .ok (v, rest') => .ok (v * 128 + (b.toNat - 128), rest')
        | .error e => .error e

/-- The next `n` characters. -/
def takeExactly : Nat → List Byte → Except DecodeError (Chars × List Byte)
  | 0, rest => .ok ([], rest)
  | _ + 1, [] => .error .operandMissing
  | n + 1, b :: rest =>
      match takeExactly n rest with
      | .ok (s, rest') => .ok (b :: s, rest')
      | .error e => .error e

/-- A character-sequence port. -/
def takeChars (bytes : List Byte) : Except DecodeError (Chars × List Byte) :=
  match takeLength bytes with
  | .ok (n, rest) => takeExactly n rest
  | .error e => .error e

/-- The input ports of one unit (R15), in the order of R39's table. -/
def takeOperands (op : Op) (bytes : List Byte) : Except DecodeError (Instr × List Byte) :=
  match op with
  | .hexr3 => do let (w, r) ← takeWide 12 bytes; .ok (.hexr3 w, r)
  | .hexr4 => do let (w, r) ← takeWide 16 bytes; .ok (.hexr4 w, r)
  | .hexp3 => do let (s, r) ← takeChars bytes; .ok (.hexp3 s, r)
  | .hexp4 => do let (s, r) ← takeChars bytes; .ok (.hexp4 s, r)
  | .pack12 => do
      let (p, r) ← takeInt bytes; let (d, r) ← takeInt r; let (t, r) ← takeInt r; .ok (.pack12 p d t, r)
  | .unpack12 => do let (w, r) ← takeWide 12 bytes; .ok (.unpack12 w, r)
  | .encode12 => do
      let (p, r) ← takeInt bytes; let (d, r) ← takeInt r; let (t, r) ← takeInt r; .ok (.encode12 p d t, r)
  | .decode12 => do let (s, r) ← takeChars bytes; .ok (.decode12 s, r)
  | .decodebatch12 => do let (s, r) ← takeChars bytes; .ok (.decodebatch12 s, r)
  | .picknorm => do
      let (a, r) ← takeInt bytes; let (b, r) ← takeInt r; let (p, r) ← takeInt r; .ok (.picknorm a b p, r)
  | .par15 => do let (v, r) ← takeWide 15 bytes; .ok (.par15 v, r)
  | .pack16 => do
      let (a, r) ← takeInt bytes; let (b, r) ← takeInt r; let (p, r) ← takeInt r; let (d, r) ← takeInt r
      .ok (.pack16 a b p d, r)
  | .pickdenorm => do
      let (c, r) ← takeNarrow 2 bytes; let (a, r) ← takeNarrow 3 r; let (b, r) ← takeNarrow 3 r
      .ok (.pickdenorm c a b, r)
  | .unpack16 => do let (w, r) ← takeWide 16 bytes; .ok (.unpack16 w, r)
  | .encode16 => do
      let (a, r) ← takeInt bytes; let (b, r) ← takeInt r; let (p, r) ← takeInt r; let (d, r) ← takeInt r
      .ok (.encode16 a b p d, r)
  | .decode16 => do let (s, r) ← takeChars bytes; .ok (.decode16 s, r)

/-- The first application presented and what follows it. Total; what cannot be read is rejected by name. -/
def decode : List Byte → Except DecodeError (Instr × List Byte)
  | [] => .error .nothingPresented
  | b :: rest =>
      match Op.ofNumber b.toNat with
      | some op => takeOperands op rest
      | none => .error (.unknownUnit b)

/-! ## Writing -/

/-- A unit's number: its row in R39's table, from 0. -/
def Op.number : Op → Nat
  | .hexr3 => 0
  | .hexr4 => 1
  | .hexp3 => 2
  | .hexp4 => 3
  | .pack12 => 4
  | .unpack12 => 5
  | .encode12 => 6
  | .decode12 => 7
  | .decodebatch12 => 8
  | .picknorm => 9
  | .par15 => 10
  | .pack16 => 11
  | .pickdenorm => 12
  | .unpack16 => 13
  | .encode16 => 14
  | .decode16 => 15

/-- A port of at most eight bits. -/
def putNarrow {n : Nat} (v : BitVec n) : List Byte := [BitVec.ofNat 8 v.toNat]

/-- A port of nine to sixteen bits. -/
def putWide {n : Nat} (v : BitVec n) : List Byte := [BitVec.ofNat 8 (v.toNat % 256), BitVec.ofNat 8 (v.toNat / 256)]

/-- An integer in at most `fuel + 1` groups. -/
def putIntFuel : Nat → Int → List Byte
  | 0, x => [BitVec.ofNat 8 (x % 128).toNat]
  | fuel + 1, x =>
      if -64 ≤ x ∧ x < 64 then [BitVec.ofNat 8 (x % 128).toNat]
      else BitVec.ofNat 8 (128 + (x % 128).toNat) :: putIntFuel fuel (x / 128)

/-- An integer port; `x` has far fewer groups than its size. -/
def putInt (x : Int) : List Byte := putIntFuel x.natAbs x

/-- A length in at most `fuel + 1` groups. -/
def putLengthFuel : Nat → Nat → List Byte
  | 0, n => [BitVec.ofNat 8 (n % 128)]
  | fuel + 1, n =>
      if n < 128 then [BitVec.ofNat 8 n] else BitVec.ofNat 8 (128 + n % 128) :: putLengthFuel fuel (n / 128)

/-- The length of a character sequence. -/
def putLength (n : Nat) : List Byte := putLengthFuel n n

/-- A character-sequence port. -/
def putChars (s : Chars) : List Byte := putLength s.length ++ s

/-- The input ports of one application, in order. -/
def putOperands : Instr → List Byte
  | .hexr3 w => putWide w
  | .hexr4 w => putWide w
  | .hexp3 s => putChars s
  | .hexp4 s => putChars s
  | .pack12 p d t => putInt p ++ (putInt d ++ putInt t)
  | .unpack12 w => putWide w
  | .encode12 p d t => putInt p ++ (putInt d ++ putInt t)
  | .decode12 s => putChars s
  | .decodebatch12 s => putChars s
  | .picknorm a b p => putInt a ++ (putInt b ++ putInt p)
  | .par15 v => putWide v
  | .pack16 a b p d => putInt a ++ (putInt b ++ (putInt p ++ putInt d))
  | .pickdenorm c a b => putNarrow c ++ (putNarrow a ++ putNarrow b)
  | .unpack16 w => putWide w
  | .encode16 a b p d => putInt a ++ (putInt b ++ (putInt p ++ putInt d))
  | .decode16 s => putChars s

/-- The characters that present one application. -/
def encode (i : Instr) : List Byte := BitVec.ofNat 8 i.op.number :: putOperands i

/-! ## The table's numbering of bits -/

/-- The bits of `w` as characters, the lowest eight first, then the zeros an application may still need: no
application whose given bits are those of a table row (at most 16) is longer than 16 + 127 characters. -/
def tableBytes (nbits w : Nat) : List Byte :=
  (List.range ((nbits + 7) / 8)).map (fun k => BitVec.ofNat 8 (w / 2 ^ (8 * k))) ++ List.replicate 144 0#8

/-- The application read from the bits of `w`, bit 0 the lowest of the first character. The table gives its rows no
fixed bits, so `w` names its unit in the model's own layout (log entries 1 and 17). -/
def decodeTableWord (nbits w : Nat) : Option Instr :=
  match decode (tableBytes nbits w) with
  | .ok (i, _) => some i
  | .error _ => none

/-- The characters that present the application read from the bits of `w` and nothing after it; the bits as they stand
where none is read. -/
def tableInstrBytes (nbits w : Nat) : List Byte :=
  match decodeTableWord nbits w with
  | some i => encode i
  | none => tableBytes nbits w

end Sys2Proof
end

