-- ==== Sys2Proof/Machine/State.lean ====
section
/-! DEFINITION. What an operation's result is and what the model's state holds. The block's own state is the unit type
(R10): it has no registers, program counter, memory or flags (R11 to R14, R19). Beside it State holds the caller's side
of the ports, through which the host's interface passes operands and results (log entry 2). -/

namespace Sys2Proof.Machine

/-- The three errors (R85, R86, R87). An error is its kind and nothing more (D12). -/
inductive ErrorKind where
  | rangeError | formatError | integrityError
deriving DecidableEq, Repr

/-- The values of an `err` output (R16, R88). -/
inductive ErrCode where
  | none | range | format | integrity
deriving DecidableEq, Repr

/-- A 12-bit schema record: `pick_o`, `dest_o`, `status_o` (R16, R56). -/
structure Record12 where
  pick : BitVec 3
  destination : BitVec 7
  status : BitVec 2
deriving DecidableEq, Repr

/-- A 16-bit schema record: `roll1_o`, `roll2_o`, `pick_o`, `dest_o` (R16, R73). -/
structure Record16 where
  roll1 : BitVec 3
  roll2 : BitVec 3
  pick : BitVec 3
  destination : BitVec 7
deriving DecidableEq, Repr

/-- What the data outputs of an operation carry when it succeeds (R16, R39). -/
inductive Value where
  | word12 (w : Word12)
  | word16 (w : Word16)
  | chars (s : Chars)
  | record12 (r : Record12)
  | records12 (rs : List Record12)
  | record16 (r : Record16)
  | code (c : BitVec 2)
  | parity (q : BitVec 1)
  | pick (p : BitVec 3)
deriving DecidableEq, Repr

/-- The result of an operation: a value or exactly one error, and no data with an error (R8, R17). -/
abbrev Result := Except ErrorKind Value

/-- The output ports of the unit driven last: which unit, and what they carry. -/
structure Outputs where
  op : Op
  result : Result
deriving DecidableEq, Repr

/-- The block's own machine state: the unit type (R10). -/
abbrev BlockState := Unit

/-- The block, and the caller's side of its ports between two operations. -/
structure State where
  /-- The block's own state, which holds nothing (R10, R19). -/
  block : BlockState
  /-- Applications presented and not yet run, first one first (the model's own field; R11, R15). -/
  inputs : List Byte
  /-- The outputs of the last operation; absent before the first (the model's own field; R16, R101). -/
  out : Option Outputs
deriving DecidableEq, Repr

/-- The block holding nothing, as always (R10); a caller who has presented nothing and received nothing. There is no
reset (R18, R100); log entry 3. -/
def State.reset : State := { block := (), inputs := [], out := none }

/-- What stops the machine with a fault: nothing. Every operation ends with a value or an error result (R8, R91, R111),
so the type has no constructor (log entry 12). -/
inductive Fault where
deriving DecidableEq, Repr

/-- Why a step gives no next state. -/
inductive Refusal where
  /-- Raised by exec for an operation that has no meaning yet; no arm does. Safe. -/
  | notModelled (mnemonic : String)
  /-- Raised by step when the caller's characters hold no application with definite operands, which the spec leaves out
  of the model (R101, U4; R15; log entry 4). Safe. -/
  | notPresented (why : DecodeError)
deriving DecidableEq, Repr

end Sys2Proof.Machine
end

