-- ==== Sys2Proof/Machine/Ops.lean ====
section
/-! DEFINITION. The shared operations: assembling and extracting fields, and ending an operation with a value or with an
error. There are no registers and no memory to operate on (R10, R13). -/

namespace Sys2Proof.Machine

/-- Field assembly (R36): the value masked to `width` bits and shifted left, in a word of `n` bits. The mask of an
integer is taken on its two's complement form (R7). -/
def placeField (n width shift : Nat) (v : Int) : BitVec n :=
  (BitVec.ofInt n v &&& BitVec.ofNat n (2 ^ width - 1)) <<< shift

/-- Field extraction (R37): `word[shift + width - 1 : shift]`, never failing, never sign-extended. -/
def takeField {n : Nat} (w : BitVec n) (shift width : Nat) : BitVec width := w.extractLsb' shift width

/-- The number of bits of `v` that are 1 (R7). -/
def popcount {n : Nat} (v : BitVec n) : Nat := (List.range n).countP v.getLsbD

/-- Put a unit's outputs in the caller's hands; nothing else changes (R24). -/
def State.present (s : State) (op : Op) (r : Result) : State := { s with out := some { op := op, result := r } }

/-- An operation that succeeds. -/
def complete (op : Op) (v : Value) (s : State) : Host.Outcome State Fault Refusal := .next (s.present op (.ok v))

/-- Error entry (R91): the operation ends and the error is its result; nothing is saved, no data output has a value
(R17), control goes nowhere. There is no return from it: the next operation behaves as its own rule says (R92). -/
def raiseError (op : Op) (e : ErrorKind) (s : State) : Host.Outcome State Fault Refusal :=
  .next (s.present op (.error e))

/-- End an operation with what its unit computed, `wrap` naming the output port. -/
def deliver {α : Type} (op : Op) (wrap : α → Value) (r : Except ErrorKind α) (s : State) :
    Host.Outcome State Fault Refusal :=
  match r with
  | .ok v => complete op (wrap v) s
  | .error e => raiseError op e s

end Sys2Proof.Machine
end

