-- ==== Sys2Proof/Machine/Operands.lean ====
section
/-! DEFINITION. Operand forms: integers on a port and their range checks, and the chunks of a batch input. -/

namespace Sys2Proof.Machine

/-- The integer an `IN_W`-bit two's complement port carries (R15). -/
def portValue {inW : Nat} (port : BitVec inW) : Int := port.toInt

/-- `lo ≤ x ≤ hi`, on the whole integer, before any masking (R6, R85). -/
def inClosed (lo hi x : Int) : Bool := decide (lo ≤ x) && decide (x ≤ hi)

/-- The operands PACK12 accepts (R55). -/
def accepts12 (pick destination status : Int) : Bool :=
  inClosed 0 6 pick && inClosed 0 100 destination && inClosed 0 3 status

/-- The rolls and pick PACK16 accepts, which are the operands R65 gives PICKNORM a meaning for. -/
def acceptsRolls (roll1 roll2 pick : Int) : Bool := inClosed 1 6 roll1 && inClosed 1 6 roll2 && inClosed 0 6 pick

/-- The operands PACK16 accepts (R69). -/
def accepts16 (roll1 roll2 pick destination : Int) : Bool :=
  acceptsRolls roll1 roll2 pick && inClosed 0 127 destination

/-- The chunks `s[3k .. 3k+3)` of a batch input, in order (R23); a rest of one or two characters is no chunk. -/
def chunks3 : Chars → List Chars
  | a :: b :: c :: rest => [a, b, c] :: chunks3 rest
  | _ => []

end Sys2Proof.Machine
end

