-- ==== Sys2Proof/Config.lean ====
section
/-! DEFINITION. What one realisation of the block fixes and the spec leaves open. Both constants have no body, so every
claim that holds of them holds of every realisation. `IN_W` has no constant here: operands are whole integers, the
limit case R4 and D3 allow (log entry 6). -/

namespace Sys2Proof

/-- `LOWER_HEX_OK` (R4, R46, D7): whether HEXP3 and HEXP4 accept `a` to `f`. OPEN in the spec; log entry 5. -/
opaque Config.lowerHexOk : Bool

/-- The 2-bit code PICKNORM's output carries for operands that have not passed the range check of R69, to which R65
gives no meaning. A free value, a function of the operands (R26 (a)): log entry 7. Arguments: roll1, roll2, pick. -/
opaque Config.picknormUnstated : Int → Int → Int → BitVec 2

end Sys2Proof
end

