-- ==== Sys2Proof/Machine/TokenHex.lean ====
section
/-! DEFINITION. The token layer: HEXR3, HEXR4, HEXP3, HEXP4 (40_token_hex.md). -/

namespace Sys2Proof.Machine

/-- `hexchar` (R45): the uppercase digit of a nibble, as its ASCII code. -/
def hexchar (v : Nibble) : Byte :=
  if v.toNat < 10 then BitVec.ofNat 8 (0x30 + v.toNat) else BitVec.ofNat 8 (0x41 + (v.toNat - 10))

/-- `hexval` (R46): the nibble of a digit character, lowercase letters only where `lower`; `none` is `invalid`. -/
def hexval (lower : Bool) (c : Byte) : Option Nibble :=
  if 0x30 ≤ c.toNat ∧ c.toNat ≤ 0x39 then some (BitVec.ofNat 4 (c.toNat - 0x30))
  else if 0x41 ≤ c.toNat ∧ c.toNat ≤ 0x46 then some (BitVec.ofNat 4 (c.toNat - 0x41 + 10))
  else if 0x61 ≤ c.toNat ∧ c.toNat ≤ 0x66 then (if lower then some (BitVec.ofNat 4 (c.toNat - 0x61 + 10)) else none)
  else none

/-- A lowercase digit character, `a` to `f` (R46, R51; ASCII by D6). -/
def isLowerHex (c : Byte) : Bool := decide (0x61 ≤ c.toNat ∧ c.toNat ≤ 0x66)

/-- The uppercase form of a lowercase digit character; any other character stays (R51; ASCII by D6). -/
def raiseCase (c : Byte) : Byte := if isLowerHex c then c - 0x20#8 else c

/-- HEXR3 (R47), most significant nibble first (R21). -/
def hexr3 (w : Word12) : Chars := [hexchar (takeField w 8 4), hexchar (takeField w 4 4), hexchar (takeField w 0 4)]

/-- HEXR4 (R48). -/
def hexr4 (w : Word16) : Chars :=
  [hexchar (takeField w 12 4), hexchar (takeField w 8 4), hexchar (takeField w 4 4), hexchar (takeField w 0 4)]

/-- HEXP3 (R49): any sequence that is not three digit characters is a FormatError, whichever test fails (R86). -/
def hexp3 (lower : Bool) (s : Chars) : Except ErrorKind Word12 :=
  match s with
  | [c0, c1, c2] =>
      match hexval lower c0, hexval lower c1, hexval lower c2 with
      | some v0, some v1, some v2 =>
          .ok ((v0.setWidth 12 <<< 8) ||| (v1.setWidth 12 <<< 4) ||| v2.setWidth 12)
      | _, _, _ => .error .formatError
  | _ => .error .formatError

/-- HEXP4 (R50). -/
def hexp4 (lower : Bool) (s : Chars) : Except ErrorKind Word16 :=
  match s with
  | [c0, c1, c2, c3] =>
      match hexval lower c0, hexval lower c1, hexval lower c2, hexval lower c3 with
      | some v0, some v1, some v2, some v3 =>
          .ok ((v0.setWidth 16 <<< 12) ||| (v1.setWidth 16 <<< 8) ||| (v2.setWidth 16 <<< 4) ||| v3.setWidth 16)
      | _, _, _, _ => .error .formatError
  | _ => .error .formatError

/-- HEXR3 (R47): total. -/
def execHexr3 (w : Word12) (s : State) : Host.Outcome State Fault Refusal := complete .hexr3 (.chars (hexr3 w)) s

/-- HEXR4 (R48): total. -/
def execHexr4 (w : Word16) (s : State) : Host.Outcome State Fault Refusal := complete .hexr4 (.chars (hexr4 w)) s

/-- HEXP3 (R49). -/
def execHexp3 (chars : Chars) (s : State) : Host.Outcome State Fault Refusal :=
  deliver .hexp3 .word12 (hexp3 Config.lowerHexOk chars) s

/-- HEXP4 (R50). -/
def execHexp4 (chars : Chars) (s : State) : Host.Outcome State Fault Refusal :=
  deliver .hexp4 .word16 (hexp4 Config.lowerHexOk chars) s

end Sys2Proof.Machine
end

