-- ==== Sys2Proof/Machine/Codec12.lean ====
section
/-! DEFINITION. The 12-bit schema: PACK12, UNPACK12, ENCODE12, DECODE12, DECODEBATCH12 (41_codec12.md). -/

namespace Sys2Proof.Machine

/-- PACK12 (R55): `pick[11:9] destination[8:2] status[1:0]` (R30), RangeError outside the bounds. -/
def pack12 (pick destination status : Int) : Except ErrorKind Word12 :=
  if accepts12 pick destination status then
    .ok (placeField 12 3 9 pick ||| placeField 12 7 2 destination ||| placeField 12 2 0 status)
  else .error .rangeError

/-- UNPACK12 (R56): no range check (R40). -/
def unpack12 (w : Word12) : Record12 :=
  { pick := takeField w 9 3, destination := takeField w 2 7, status := takeField w 0 2 }

/-- ENCODE12 (R58): HEXR3 after PACK12. -/
def encode12 (pick destination status : Int) : Except ErrorKind Chars := (pack12 pick destination status).map hexr3

/-- DECODE12 (R59): UNPACK12 after HEXP3. -/
def decode12 (lower : Bool) (s : Chars) : Except ErrorKind Record12 := (hexp3 lower s).map unpack12

/-- The loop of DECODEBATCH12 (R61): chunks in order, the first error ends it and no record is returned (R90). -/
def decodeChunks (lower : Bool) : List Chars → Except ErrorKind (List Record12)
  | [] => .ok []
  | c :: rest =>
      match decode12 lower c with
      | .error e => .error e
      | .ok r =>
          match decodeChunks lower rest with
          | .error e => .error e
          | .ok rs => .ok (r :: rs)

/-- DECODEBATCH12 (R61): the length test comes before any chunk. -/
def decodebatch12 (lower : Bool) (s : Chars) : Except ErrorKind (List Record12) :=
  if s.length % 3 = 0 then decodeChunks lower (chunks3 s) else .error .formatError

/-- PACK12 (R55). -/
def execPack12 (pick destination status : Int) (s : State) : Host.Outcome State Fault Refusal :=
  deliver .pack12 .word12 (pack12 pick destination status) s

/-- UNPACK12 (R56): total. -/
def execUnpack12 (w : Word12) (s : State) : Host.Outcome State Fault Refusal :=
  complete .unpack12 (.record12 (unpack12 w)) s

/-- ENCODE12 (R58). -/
def execEncode12 (pick destination status : Int) (s : State) : Host.Outcome State Fault Refusal :=
  deliver .encode12 .chars (encode12 pick destination status) s

/-- DECODE12 (R59). -/
def execDecode12 (chars : Chars) (s : State) : Host.Outcome State Fault Refusal :=
  deliver .decode12 .record12 (decode12 Config.lowerHexOk chars) s

/-- DECODEBATCH12 (R61). -/
def execDecodebatch12 (chars : Chars) (s : State) : Host.Outcome State Fault Refusal :=
  deliver .decodebatch12 .records12 (decodebatch12 Config.lowerHexOk chars) s

end Sys2Proof.Machine
end

