-- ==== Sys2Proof/Machine/Codec16.lean ====
section
/-! DEFINITION. The 16-bit schema with parity: PICKNORM, PAR15, PACK16, PICKDENORM, UNPACK16, ENCODE16, DECODE16
(42_codec16_parity.md). -/

namespace Sys2Proof.Machine

/-- The fallback of R65: a pick that matches neither roll is packed as it stands (U1, D11; log entry 8). -/
def pickFallback (pick : Int) : Int := pick

/-- PICKNORM (R65) for operands that have passed the range check of R69. -/
def pickCode (roll1 roll2 pick : Int) : BitVec 2 :=
  let raw := if pick = 0 then 0 else if pick = roll1 then 1 else if pick = roll2 then 2 else pickFallback pick
  BitVec.ofInt 2 raw

/-- PICKNORM as a unit of its own: for other operands R65 states no code, and the output is a free value
(log entry 7). Its `err` is NONE for all operands (R16, R88). -/
def picknorm (roll1 roll2 pick : Int) : BitVec 2 :=
  if acceptsRolls roll1 roll2 pick then pickCode roll1 roll2 pick else Config.picknormUnstated roll1 roll2 pick

/-- PAR15 (R67): the population count of the payload modulo 2. -/
def par15 (payload : Payload) : BitVec 1 := BitVec.ofNat 1 (popcount payload % 2)

/-- The four fields of a W16 word, bit 0 still clear (R32, R69). -/
def body16 (roll1 roll2 : Int) (code : BitVec 2) (destination : Int) : Word16 :=
  placeField 16 3 13 roll1 ||| placeField 16 3 10 roll2 ||| placeField 16 2 8 (code.toNat : Int)
    ||| placeField 16 7 1 destination

/-- PACK16 (R69): range checks first, then PICKNORM, the fields and the parity bit. -/
def pack16 (roll1 roll2 pick destination : Int) : Except ErrorKind Word16 :=
  if accepts16 roll1 roll2 pick destination then
    let body := body16 roll1 roll2 (pickCode roll1 roll2 pick) destination
    .ok (body ||| (par15 (takeField body 1 15)).setWidth 16)
  else .error .rangeError

/-- What PICKDENORM returns for code 3: the code itself (R72; U2; log entry 8). -/
def codeFallback (code : BitVec 2) : BitVec 3 := code.setWidth 3

/-- PICKDENORM (R72). -/
def pickdenorm (code : BitVec 2) (roll1 roll2 : BitVec 3) : BitVec 3 :=
  if code = 0#2 then 0#3 else if code = 1#2 then roll1 else if code = 2#2 then roll2 else codeFallback code

/-- The parity check (R71). -/
def parityOk (w : Word16) : Bool := par15 (takeField w 1 15) == takeField w 0 1

/-- UNPACK16 (R73): the parity check before any field, then the fields of the payload (R32, C3). -/
def unpack16 (w : Word16) : Except ErrorKind Record16 :=
  if parityOk w then
    let payload : Payload := takeField w 1 15
    let roll1 : BitVec 3 := takeField payload 12 3
    let roll2 : BitVec 3 := takeField payload 9 3
    .ok { roll1 := roll1, roll2 := roll2, pick := pickdenorm (takeField payload 7 2) roll1 roll2,
          destination := takeField payload 0 7 }
  else .error .integrityError

/-- ENCODE16 (R75): HEXR4 after PACK16. -/
def encode16 (roll1 roll2 pick destination : Int) : Except ErrorKind Chars :=
  (pack16 roll1 roll2 pick destination).map hexr4

/-- DECODE16 (R76): UNPACK16 after HEXP4, so a FormatError comes before any parity check (R89). -/
def decode16 (lower : Bool) (s : Chars) : Except ErrorKind Record16 := (hexp4 lower s).bind unpack16

/-- PICKNORM (R65): never an error. -/
def execPicknorm (roll1 roll2 pick : Int) (s : State) : Host.Outcome State Fault Refusal :=
  complete .picknorm (.code (picknorm roll1 roll2 pick)) s

/-- PAR15 (R67): total. -/
def execPar15 (payload : Payload) (s : State) : Host.Outcome State Fault Refusal :=
  complete .par15 (.parity (par15 payload)) s

/-- PACK16 (R69). -/
def execPack16 (roll1 roll2 pick destination : Int) (s : State) : Host.Outcome State Fault Refusal :=
  deliver .pack16 .word16 (pack16 roll1 roll2 pick destination) s

/-- PICKDENORM (R72): total. -/
def execPickdenorm (code : BitVec 2) (roll1 roll2 : BitVec 3) (s : State) : Host.Outcome State Fault Refusal :=
  complete .pickdenorm (.pick (pickdenorm code roll1 roll2)) s

/-- UNPACK16 (R73). -/
def execUnpack16 (w : Word16) (s : State) : Host.Outcome State Fault Refusal :=
  deliver .unpack16 .record16 (unpack16 w) s

/-- ENCODE16 (R75). -/
def execEncode16 (roll1 roll2 pick destination : Int) (s : State) : Host.Outcome State Fault Refusal :=
  deliver .encode16 .chars (encode16 roll1 roll2 pick destination) s

/-- DECODE16 (R76). -/
def execDecode16 (chars : Chars) (s : State) : Host.Outcome State Fault Refusal :=
  deliver .decode16 .record16 (decode16 Config.lowerHexOk chars) s

end Sys2Proof.Machine
end

