-- ==== Sys2Proof/Machine/Dispatch.lean ====
section
/-! DEFINITION. One arm for each operation of R39. -/

namespace Sys2Proof.Machine

def exec (i : Instr) (s : State) : Host.Outcome State Fault Refusal :=
  match i with
  | .hexr3 w => Sys2Proof.Machine.execHexr3 w s
  | .hexr4 w => Sys2Proof.Machine.execHexr4 w s
  | .hexp3 chars => Sys2Proof.Machine.execHexp3 chars s
  | .hexp4 chars => Sys2Proof.Machine.execHexp4 chars s
  | .pack12 pick destination status => Sys2Proof.Machine.execPack12 pick destination status s
  | .unpack12 w => Sys2Proof.Machine.execUnpack12 w s
  | .encode12 pick destination status => Sys2Proof.Machine.execEncode12 pick destination status s
  | .decode12 chars => Sys2Proof.Machine.execDecode12 chars s
  | .decodebatch12 chars => Sys2Proof.Machine.execDecodebatch12 chars s
  | .picknorm roll1 roll2 pick => Sys2Proof.Machine.execPicknorm roll1 roll2 pick s
  | .par15 payload => Sys2Proof.Machine.execPar15 payload s
  | .pack16 roll1 roll2 pick destination => Sys2Proof.Machine.execPack16 roll1 roll2 pick destination s
  | .pickdenorm code roll1 roll2 => Sys2Proof.Machine.execPickdenorm code roll1 roll2 s
  | .unpack16 w => Sys2Proof.Machine.execUnpack16 w s
  | .encode16 roll1 roll2 pick destination => Sys2Proof.Machine.execEncode16 roll1 roll2 pick destination s
  | .decode16 chars => Sys2Proof.Machine.execDecode16 chars s

end Sys2Proof.Machine
end

