-- ==== Sys2Proof/Machine/Step.lean ====
section
/-! DEFINITION. One step: one application of one operation (R11). -/

namespace Sys2Proof.Machine

/-- Read the first application presented, take it off the inputs and run it. Where none with definite operands is
presented the model has no result (R101, U4; log entry 4). -/
def step (s : State) : Host.Outcome State Fault Refusal :=
  match decode s.inputs with
  | .ok (i, rest) => exec i { s with inputs := rest }
  | .error e => .refused (.notPresented e)

/-- The caller presents, ahead of whatever is presented already, the application whose bits are `w` (log entry 17).
Driving the input ports anew ends the outputs of the operation before: what they hold until the next one has run the
spec does not say (R101). -/
def State.withFetchWord (s : State) (nbits w : Nat) : State :=
  { s with inputs := tableInstrBytes nbits w ++ s.inputs, out := none }

end Sys2Proof.Machine
end

