-- ==== Sys2Proof/Machine/Block.lean ====
section
/-! DEFINITION. The block by itself, without the caller's side of its ports: a machine whose state type is the unit type,
every operation a function of its operands alone (R10, R11, D1). exec is this block with its outputs put in the caller's
hands (Laws/Exec.lean: exec_eq_block). -/

namespace Sys2Proof.Machine

/-- The result of an application: a function of its operands alone (R10, R26). -/
def resultOf : Instr → Result
  | .hexr3 w => .ok (.chars (hexr3 w))
  | .hexr4 w => .ok (.chars (hexr4 w))
  | .hexp3 s => (hexp3 Config.lowerHexOk s).map .word12
  | .hexp4 s => (hexp4 Config.lowerHexOk s).map .word16
  | .pack12 p d t => (pack12 p d t).map .word12
  | .unpack12 w => .ok (.record12 (unpack12 w))
  | .encode12 p d t => (encode12 p d t).map .chars
  | .decode12 s => (decode12 Config.lowerHexOk s).map .record12
  | .decodebatch12 s => (decodebatch12 Config.lowerHexOk s).map .records12
  | .picknorm a b p => .ok (.code (picknorm a b p))
  | .par15 v => .ok (.parity (par15 v))
  | .pack16 a b p d => (pack16 a b p d).map .word16
  | .pickdenorm c a b => .ok (.pick (pickdenorm c a b))
  | .unpack16 w => (unpack16 w).map .record16
  | .encode16 a b p d => (encode16 a b p d).map .chars
  | .decode16 s => (decode16 Config.lowerHexOk s).map .record16

/-- One step of the block (R11): the operands go in, the result comes out, and the unit state stays (R10). -/
def blockStep (i : Instr) (b : BlockState) : Result × BlockState := (resultOf i, b)

end Sys2Proof.Machine
end

