-- ==== Sys2Proof/Machine/Flags.lean ====
section
/-! DEFINITION. The `err` output. It is a function of the operation just run, is not sticky and nothing clears it (R14),
so it is computed from the result and not stored. -/

namespace Sys2Proof.Machine

/-- An error kind's code (R88). -/
def ErrorKind.errCode : ErrorKind → ErrCode
  | .rangeError => .range
  | .formatError => .format
  | .integrityError => .integrity

/-- The `err` output of a result; constantly NONE on success (R16, R88). -/
def Result.err : Result → ErrCode
  | .ok _ => .none
  | .error e => e.errCode

/-- The 2-bit numbers of R88. -/
def ErrCode.bits : ErrCode → BitVec 2
  | .none => 0#2
  | .range => 1#2
  | .format => 2#2
  | .integrity => 3#2

/-- The `err` output the caller reads; absent before the first operation (R101). -/
def State.err (s : State) : Option ErrCode := s.out.map fun o => Result.err o.result

end Sys2Proof.Machine
end

