-- ==== Sys2Proof/Safety.lean ====
section
/-! DEFINITION. What a caller may always rely on about a unit's outputs: which error it can report (the table of R88)
and what its data outputs can carry (R16, with what R30 to R42 say of produced words). -/

namespace Sys2Proof.Machine

/-- The table of R88: which operation can report which error. -/
def mayRaise : Op → ErrorKind → Bool
  | .hexr3, _ | .hexr4, _ | .unpack12, _ | .par15, _ | .picknorm, _ | .pickdenorm, _ => false
  | .hexp3, e | .hexp4, e => e == .formatError
  | .pack12, e | .pack16, e | .encode12, e | .encode16, e => e == .rangeError
  | .decode12, e | .decodebatch12, e => e == .formatError
  | .unpack16, e => e == .integrityError
  | .decode16, e => e == .formatError || e == .integrityError

/-- `0`-`9` or `A`-`F` by ASCII code (R31, R33, R45). -/
def isUpperHex (c : Byte) : Bool :=
  (decide (0x30 ≤ c.toNat) && decide (c.toNat ≤ 0x39)) || (decide (0x41 ≤ c.toNat) && decide (c.toNat ≤ 0x46))

/-- A token of `n` characters as an encoder writes it. -/
def isToken (n : Nat) (s : Chars) : Bool := s.length == n && s.all isUpperHex

/-- A 12-bit word an encoder produces (R40). -/
def produced12 (w : Word12) : Bool := decide (w.toNat / 512 ≤ 6) && decide (w.toNat / 4 % 128 ≤ 100)

/-- A 16-bit word with an even number of ones and both rolls in 1 to 6 (R41, R68). -/
def rollsAndParityOk (w : Word16) : Bool :=
  decide (popcount w % 2 = 0) && decide (1 ≤ w.toNat / 8192 ∧ w.toNat / 8192 ≤ 6)
    && decide (1 ≤ w.toNat / 1024 % 8 ∧ w.toNat / 1024 % 8 ≤ 6)

/-- A token whose word is one the 12-bit encoder produces. -/
def producedToken12 (s : Chars) : Bool :=
  isToken 3 s && match hexp3 false s with
    | .ok w => produced12 w
    | .error _ => false

/-- A token whose word passes the parity check and holds rolls in 1 to 6. -/
def producedToken16 (s : Chars) : Bool :=
  isToken 4 s && match hexp4 false s with
    | .ok w => rollsAndParityOk w
    | .error _ => false

/-- A decoded pick is 0, one of the decoded rolls, or 3 (R72). -/
def decodedPick (r : Record16) : Bool := r.pick == 0#3 || r.pick == r.roll1 || r.pick == r.roll2 || r.pick == 3#3

/-- Whether a unit's data outputs can carry a value (R16). -/
def mayCarry : Op → Value → Bool
  | .hexr3, .chars s => isToken 3 s
  | .hexr4, .chars s => isToken 4 s
  | .hexp3, .word12 _ => true
  | .hexp4, .word16 _ => true
  | .pack12, .word12 w => produced12 w
  | .unpack12, .record12 _ => true
  | .encode12, .chars s => producedToken12 s
  | .decode12, .record12 _ => true
  | .decodebatch12, .records12 _ => true
  | .picknorm, .code _ => true
  | .par15, .parity _ => true
  | .pack16, .word16 w => rollsAndParityOk w
  | .pickdenorm, .pick _ => true
  | .unpack16, .record16 r => decodedPick r
  | .encode16, .chars s => producedToken16 s
  | .decode16, .record16 r => decodedPick r
  | _, _ => false

/-- Outputs some operation of the block can show. -/
def Outputs.legal (o : Outputs) : Bool :=
  match o.result with
  | .ok v => mayCarry o.op v
  | .error e => mayRaise o.op e

/-- The invariant of a step: whatever stands on the outputs, an operation of the block can have put there. -/
def State.Legal (s : State) : Prop := ∀ o, s.out = some o → o.legal = true

end Sys2Proof.Machine
end

