-- ==== Sys2Proof/WellFormed.lean ====
section
/-! DEFINITION. The applications to which the spec gives a meaning. Widths of words, codes and characters are in the
types of Syntax; one condition remains: R65 gives PICKNORM a meaning only for operands that have passed the range
check of R69. An application outside it still runs (its code is a free value, log entry 7). -/

namespace Sys2Proof

/-- The check of every operation but PICKNORM is empty: each is total on its operands (R8, R40, R41, R85 to R87). -/
def Instr.wellFormed : Instr → Bool
  | .hexr3 _ | .hexr4 _ | .hexp3 _ | .hexp4 _ => true
  | .pack12 _ _ _ | .unpack12 _ | .encode12 _ _ _ | .decode12 _ | .decodebatch12 _ => true
  | .picknorm roll1 roll2 pick =>
      decide (1 ≤ roll1 ∧ roll1 ≤ 6) && decide (1 ≤ roll2 ∧ roll2 ≤ 6) && decide (0 ≤ pick ∧ pick ≤ 6)
  | .par15 _ | .pack16 _ _ _ _ | .pickdenorm _ _ _ | .unpack16 _ | .encode16 _ _ _ _ | .decode16 _ => true

end Sys2Proof
end

