-- ==== Sys2Proof/Certificates/Slice0/Obligations.lean ====
section
/-! DEFINITION. The statements for the provers. Each gives the whole next state, `{ s with out := … }`, so it also says
that nothing else changes; every statement about HEXP3, HEXP4 and the decoders holds for both values of `LOWER_HEX_OK`,
since `Config.lowerHexOk` has no body. -/

open Sys2Proof Sys2Proof.Machine

/-! ## Presenting and running an application (the model's own layout, log entries 1, 2, 3, 4 and 17) -/

/-- One step is one application (10_state.md R11): reading it, taking its characters off the inputs, and running it. -/
def Obligations.StepRunsDecodedApplication : Prop :=
  ∀ (s : State) (i : Instr) (rest : List Byte), decode s.inputs = .ok (i, rest) →
    step s = exec i { s with inputs := rest }

/-- Without definite operands there is no result (R101, U4; the refusal is the model's choice, log entry 4). -/
def Obligations.StepRefusesWithoutApplication : Prop :=
  (∀ (s : State) (e : DecodeError), decode s.inputs = .error e → step s = .refused (.notPresented e)) ∧
  (∀ s : State, s.inputs = [] → step s = .refused (.notPresented .nothingPresented))

/-- Some applications written out by hand: for each family, a unit number and its ports' characters. -/
def Obligations.WrittenOutCharactersDecode : Prop :=
  decode [0#8, 0x93#8, 0x0D#8] = .ok (.hexr3 0xD93#12, []) ∧
  decode [7#8, 3#8, 0x36#8, 0x45#8, 0x36#8] = .ok (.decode12 [0x36#8, 0x45#8, 0x36#8], []) ∧
  decode [4#8, 3#8, 57#8, 2#8] = .ok (.pack12 3 57 2, []) ∧
  decode [11#8, 3#8, 5#8, 0#8, 42#8] = .ok (.pack16 3 5 0 42, []) ∧
  decode [11#8, 0x7F#8, 5#8, 0#8, 0x80#8, 0x01#8] = .ok (.pack16 (-1) 5 0 128, []) ∧
  decode [12#8, 2#8, 3#8, 5#8] = .ok (.pickdenorm 2#2 3#3 5#3, []) ∧
  decode [13#8, 0x55#8, 0x74#8] = .ok (.unpack16 0x7455#16, [])

/-- Every application, at every value of its operands, is read back as it was written. -/
def Obligations.DecodeUndoesEncode : Prop :=
  ∀ (i : Instr) (rest : List Byte), decode (encode i ++ rest) = .ok (i, rest)

/-- Reading takes a nonempty beginning of the inputs, and what it reads depends on that beginning alone. -/
def Obligations.DecodeReadsPrefixOnly : Prop :=
  ∀ (bytes rest : List Byte) (i : Instr), decode bytes = .ok (i, rest) →
    ∃ used : List Byte, used ≠ [] ∧ bytes = used ++ rest ∧ ∀ more : List Byte, decode (used ++ more) = .ok (i, more)

/-- The word the caller presents ahead of everything else is the very next application run. -/
def Obligations.PresentedWordRunsNext : Prop :=
  ∀ (s : State) (nbits w : Nat) (i : Instr), decodeTableWord nbits w = some i →
    step (s.withFetchWord nbits w) = exec i s

/-- Any applications presented one after another run to the end, and the last one's outcome is what it would be with no
other before it: earlier results and errors leave nothing behind (60_exceptions.md R92, 70_reset_and_hazards.md R109). -/
def Obligations.PresentedApplicationsRunInTurn : Prop :=
  ∀ (before : List Instr) (i : Instr) (tail : List Byte) (s t : State),
    exec i { s with inputs := tail } = .next t →
    core.run (before.length + 1) { s with inputs := (before ++ [i]).flatMap encode ++ tail } = .next t

/-- The model's start: the block's unit state, nothing presented, no outputs, and no step until something is (R18, R100, R101; log entry 3). -/
def Obligations.ResetHoldsNothing : Prop :=
  core.reset = ({ block := (), inputs := [], out := none } : State) ∧ State.reset.Legal ∧
  step State.reset = .refused (.notPresented .nothingPresented)

/-! ## Every operation -/

/-- The result depends on the operands alone, the outputs are those of the unit driven, the rest of the state stays:
one result `r` serves every state (R10, R24, R26 (a)). This also says that every operation completes in every state. -/
def Obligations.ResultDependsOnOperandsAlone : Prop :=
  ∀ i : Instr, ∃ r : Result, ∀ s : State, exec i s = .next { s with out := some ⟨i.op, r⟩ }

/-- The block keeps nothing between operations (R10, R92, R109): a step's whole outcome, the next state included, is the
same whatever an earlier operation left on the outputs, and an operation leaves no trace but its own outputs. -/
def Obligations.StepForgetsEarlierOutputs : Prop :=
  (∀ s t : State, s.inputs = t.inputs → step s = step t) ∧
  (∀ (i j : Instr) (s t : State), exec i s = .next t → exec j t = exec j s)

/-- R10 (D1): the machine behind exec is the block `blockStep`, whose state type is the unit type; exec adds the caller's
side of the ports, on which the result stands, and nothing else. Presenting an application ends the outputs of the one
before (R101; State.withFetchWord and the ports' place in State are the model's own, log entries 2 and 17). -/
def Obligations.ExecIsUnitStateBlock : Prop :=
  (∀ b : BlockState, b = ()) ∧
  (∀ (i : Instr) (s : State), exec i s = .next
    { block := (blockStep i s.block).2, inputs := s.inputs, out := some ⟨i.op, (blockStep i s.block).1⟩ }) ∧
  (∀ (s : State) (nbits w : Nat), (s.withFetchWord nbits w).out = none)

/-- `err` belongs to the operation just run and to no earlier one (R14), whatever state it ran in. -/
def Obligations.ErrIsNotSticky : Prop :=
  ∀ (i : Instr) (s s' t t' : State), exec i s = .next t → exec i s' = .next t' → t.err = t'.err ∧ t.err.isSome

/-- The table of R88, both ways, and its numbers (D4, the spec's own choice). -/
def Obligations.ErrorTableOfOperations : Prop :=
  (∀ (i : Instr) (s t : State) (e : ErrorKind), exec i s = .next t → t.out = some ⟨i.op, .error e⟩ →
    (e = .rangeError → i.op ∈ [Op.pack12, .pack16, .encode12, .encode16]) ∧
    (e = .formatError → i.op ∈ [Op.hexp3, .hexp4, .decode12, .decodebatch12, .decode16]) ∧
    (e = .integrityError → i.op ∈ [Op.unpack16, .decode16])) ∧
  (∀ op : Op,
    (op ∈ [Op.pack12, .pack16, .encode12, .encode16] →
      ∃ i : Instr, i.op = op ∧ ∀ s : State, exec i s = .next { s with out := some ⟨op, .error .rangeError⟩ }) ∧
    (op ∈ [Op.hexp3, .hexp4, .decode12, .decodebatch12, .decode16] →
      ∃ i : Instr, i.op = op ∧ ∀ s : State, exec i s = .next { s with out := some ⟨op, .error .formatError⟩ }) ∧
    (op ∈ [Op.unpack16, .decode16] →
      ∃ i : Instr, i.op = op ∧ ∀ s : State, exec i s = .next { s with out := some ⟨op, .error .integrityError⟩ })) ∧
  (∀ (s : State) (op : Op) (v : Value), ({ s with out := some ⟨op, .ok v⟩ } : State).err = some ErrCode.none) ∧
  (∀ (s : State) (op : Op), ({ s with out := some ⟨op, .error .rangeError⟩ } : State).err = some ErrCode.range ∧
    ({ s with out := some ⟨op, .error .formatError⟩ } : State).err = some ErrCode.format ∧
    ({ s with out := some ⟨op, .error .integrityError⟩ } : State).err = some ErrCode.integrity) ∧
  ErrCode.none.bits = 0#2 ∧ ErrCode.range.bits = 1#2 ∧ ErrCode.format.bits = 2#2 ∧ ErrCode.integrity.bits = 3#2

/-- Whatever stands on the outputs is something that unit can show: its error is in the table of R88, its data has the
shape of R16, its tokens are uppercase hexadecimal, its packed words are words an encoder produces. -/
def Obligations.EveryStepKeepsOutputsLegal : Prop :=
  ∀ s s' : State, s.Legal → step s = .next s' → s'.Legal

/-- R85: RangeError exactly for an encode operation with an operand outside its closed bounds, and for nothing else. -/
def Obligations.RangeErrorExactlyOutOfBounds : Prop :=
  ∀ (i : Instr) (s : State), exec i s = .next { s with out := some ⟨i.op, .error .rangeError⟩ } ↔
    match i with
    | .pack12 p d t | .encode12 p d t => ¬ ((0 ≤ p ∧ p ≤ 6) ∧ (0 ≤ d ∧ d ≤ 100) ∧ (0 ≤ t ∧ t ≤ 3))
    | .pack16 a b p d | .encode16 a b p d =>
        ¬ ((1 ≤ a ∧ a ≤ 6) ∧ (1 ≤ b ∧ b ≤ 6) ∧ (0 ≤ p ∧ p ≤ 6) ∧ (0 ≤ d ∧ d ≤ 127))
    | .hexr3 _ | .hexr4 _ | .hexp3 _ | .hexp4 _ | .unpack12 _ | .decode12 _ | .decodebatch12 _ | .picknorm _ _ _
    | .par15 _ | .pickdenorm _ _ _ | .unpack16 _ | .decode16 _ => False

/-- R86: FormatError exactly for a parse or decode of a sequence of the wrong length or with a character that is no
hexadecimal digit, and for nothing else. -/
def Obligations.FormatErrorExactlyMalformedText : Prop :=
  ∀ (i : Instr) (s : State), exec i s = .next { s with out := some ⟨i.op, .error .formatError⟩ } ↔
    match i with
    | .hexp3 c | .decode12 c => c.length ≠ 3 ∨ ∃ x ∈ c, hexval Config.lowerHexOk x = none
    | .hexp4 c | .decode16 c => c.length ≠ 4 ∨ ∃ x ∈ c, hexval Config.lowerHexOk x = none
    | .decodebatch12 c => c.length % 3 ≠ 0 ∨ ∃ x ∈ c, hexval Config.lowerHexOk x = none
    | .hexr3 _ | .hexr4 _ | .pack12 _ _ _ | .unpack12 _ | .encode12 _ _ _ | .picknorm _ _ _
    | .par15 _ | .pack16 _ _ _ _ | .pickdenorm _ _ _ | .unpack16 _ | .encode16 _ _ _ _ => False

/-- R87: IntegrityError exactly for an unpack of a word whose parity bit disagrees with its payload, and for the decode
of a token of such a word; for nothing else. -/
def Obligations.IntegrityErrorExactlyParityMismatch : Prop :=
  ∀ (i : Instr) (s : State), exec i s = .next { s with out := some ⟨i.op, .error .integrityError⟩ } ↔
    match i with
    | .unpack16 w => (List.range 15).countP (fun k => w.getLsbD (k + 1)) % 2 ≠ w.toNat % 2
    | .decode16 c => ∃ w : Word16, exec (.hexp4 c) s = .next { s with out := some ⟨.hexp4, .ok (.word16 w)⟩ } ∧
        (List.range 15).countP (fun k => w.getLsbD (k + 1)) % 2 ≠ w.toNat % 2
    | .hexr3 _ | .hexr4 _ | .hexp3 _ | .hexp4 _ | .pack12 _ _ _ | .unpack12 _ | .encode12 _ _ _ | .decode12 _
    | .decodebatch12 _ | .picknorm _ _ _ | .par15 _ | .pack16 _ _ _ _ | .pickdenorm _ _ _ | .encode16 _ _ _ _ => False

/-- Every boundary value of an encode operand, the nearest rejected ones included, fits a port of any `IN_W ≥ 9`
(R4, R15, D3): the limit case of whole integers loses none of them. -/
def Obligations.NineBitPortsPresentEveryBoundary : Prop :=
  ∀ (inW : Nat) (x : Int), 9 ≤ inW → -1 ≤ x → x ≤ 128 → ∃ port : BitVec inW, portValue port = x

/-! ## The token layer -/

/-- The sixteen digit characters and their codes (R45; the codes are ASCII by the spec's own choice D6, log entry 9). -/
def Obligations.HexcharIsUppercaseAscii : Prop :=
  (List.range 16).map (fun v => hexchar (BitVec.ofNat 4 v)) =
    [0x30#8, 0x31#8, 0x32#8, 0x33#8, 0x34#8, 0x35#8, 0x36#8, 0x37#8,
     0x38#8, 0x39#8, 0x41#8, 0x42#8, 0x43#8, 0x44#8, 0x45#8, 0x46#8]

/-- R46: a character is valid exactly when it is the digit of some nibble, or, where lowercase is accepted, one of `a`
to `f` (codes by D6); nothing else is (D8, log entry 10). -/
def Obligations.HexvalAcceptsDigitsOnly : Prop :=
  ∀ (lower : Bool) (c : Byte) (v : Nibble), hexval lower c = some v ↔
    (c = hexchar v ∨ (lower = true ∧ 10 ≤ v.toNat ∧ c.toNat = 0x61 + (v.toNat - 10)))

/-- R47: HEXR3 renders the three nibbles, most significant first, zeros kept. -/
def Obligations.Hexr3RendersNibbles : Prop :=
  ∀ (w : Word12) (s : State), exec (.hexr3 w) s = .next { s with out := some ⟨.hexr3, .ok (.chars
    [hexchar (BitVec.ofNat 4 (w.toNat / 256)), hexchar (BitVec.ofNat 4 (w.toNat / 16)),
     hexchar (BitVec.ofNat 4 w.toNat)])⟩ }

/-- R48: HEXR4 renders the four nibbles, most significant first, zeros kept. -/
def Obligations.Hexr4RendersNibbles : Prop :=
  ∀ (w : Word16) (s : State), exec (.hexr4 w) s = .next { s with out := some ⟨.hexr4, .ok (.chars
    [hexchar (BitVec.ofNat 4 (w.toNat / 4096)), hexchar (BitVec.ofNat 4 (w.toNat / 256)),
     hexchar (BitVec.ofNat 4 (w.toNat / 16)), hexchar (BitVec.ofNat 4 w.toNat)])⟩ }

/-- R49: HEXP3 of three valid characters is their word; any other sequence is a FormatError. -/
def Obligations.Hexp3ParsesThreeDigits : Prop :=
  (∀ (s : State) (c0 c1 c2 : Byte) (v0 v1 v2 : Nibble), hexval Config.lowerHexOk c0 = some v0 →
    hexval Config.lowerHexOk c1 = some v1 → hexval Config.lowerHexOk c2 = some v2 →
    ∃ w : Word12, exec (.hexp3 [c0, c1, c2]) s = .next { s with out := some ⟨.hexp3, .ok (.word12 w)⟩ } ∧
      w.toNat = v0.toNat * 256 + v1.toNat * 16 + v2.toNat) ∧
  (∀ (s : State) (chars : Chars), (chars.length ≠ 3 ∨ ∃ c ∈ chars, hexval Config.lowerHexOk c = none) →
    exec (.hexp3 chars) s = .next { s with out := some ⟨.hexp3, .error .formatError⟩ })

/-- R50: HEXP4 of four valid characters is their word; any other sequence is a FormatError. -/
def Obligations.Hexp4ParsesFourDigits : Prop :=
  (∀ (s : State) (c0 c1 c2 c3 : Byte) (v0 v1 v2 v3 : Nibble), hexval Config.lowerHexOk c0 = some v0 →
    hexval Config.lowerHexOk c1 = some v1 → hexval Config.lowerHexOk c2 = some v2 →
    hexval Config.lowerHexOk c3 = some v3 →
    ∃ w : Word16, exec (.hexp4 [c0, c1, c2, c3]) s = .next { s with out := some ⟨.hexp4, .ok (.word16 w)⟩ } ∧
      w.toNat = v0.toNat * 4096 + v1.toNat * 256 + v2.toNat * 16 + v3.toNat) ∧
  (∀ (s : State) (chars : Chars), (chars.length ≠ 4 ∨ ∃ c ∈ chars, hexval Config.lowerHexOk c = none) →
    exec (.hexp4 chars) s = .next { s with out := some ⟨.hexp4, .error .formatError⟩ })

/-- R51, first half: parsing what was rendered gives the word back, at both widths. -/
def Obligations.ParsingUndoesRendering : Prop :=
  (∀ (w : Word12) (s s' : State), ∃ token : Chars,
    exec (.hexr3 w) s = .next { s with out := some ⟨.hexr3, .ok (.chars token)⟩ } ∧
    exec (.hexp3 token) s' = .next { s' with out := some ⟨.hexp3, .ok (.word12 w)⟩ }) ∧
  (∀ (w : Word16) (s s' : State), ∃ token : Chars,
    exec (.hexr4 w) s = .next { s with out := some ⟨.hexr4, .ok (.chars token)⟩ } ∧
    exec (.hexp4 token) s' = .next { s' with out := some ⟨.hexp4, .ok (.word16 w)⟩ })

/-- R51, second half: rendering what was parsed gives the text back with its lowercase letters raised. The
codes of the letters, and so the 20 in hexadecimal between a letter's two forms, are ASCII by the spec's own choice D6
(R45, R46, log entry 9). -/
def Obligations.RenderingUppercasesParsedText : Prop :=
  (∀ (chars : Chars) (w : Word12) (s : State),
    exec (.hexp3 chars) s = .next { s with out := some ⟨.hexp3, .ok (.word12 w)⟩ } →
    exec (.hexr3 w) s = .next { s with out := some ⟨.hexr3, .ok (.chars
      (chars.map fun c => if 0x61 ≤ c.toNat ∧ c.toNat ≤ 0x66 then c - 0x20#8 else c))⟩ }) ∧
  (∀ (chars : Chars) (w : Word16) (s : State),
    exec (.hexp4 chars) s = .next { s with out := some ⟨.hexp4, .ok (.word16 w)⟩ } →
    exec (.hexr4 w) s = .next { s with out := some ⟨.hexr4, .ok (.chars
      (chars.map fun c => if 0x61 ≤ c.toNat ∧ c.toNat ≤ 0x66 then c - 0x20#8 else c))⟩ })

/-- R51, the rest: HEXR3 and HEXR4 are injective, HEXP3 and HEXP4 are injective on text without lowercase letters, and
rendering what was parsed gives the same text exactly when it has no lowercase letter (`isLowerHex`: the codes of `a` to
`f` are ASCII by the spec's own choice D6, log entry 9). -/
def Obligations.TokenTextDeterminesWord : Prop :=
  (∀ (w w' : Word12) (token : Chars) (s s' : State),
    exec (.hexr3 w) s = .next { s with out := some ⟨.hexr3, .ok (.chars token)⟩ } →
    exec (.hexr3 w') s' = .next { s' with out := some ⟨.hexr3, .ok (.chars token)⟩ } → w = w') ∧
  (∀ (w w' : Word16) (token : Chars) (s s' : State),
    exec (.hexr4 w) s = .next { s with out := some ⟨.hexr4, .ok (.chars token)⟩ } →
    exec (.hexr4 w') s' = .next { s' with out := some ⟨.hexr4, .ok (.chars token)⟩ } → w = w') ∧
  (∀ (a b : Chars) (w : Word12) (s : State),
    exec (.hexp3 a) s = .next { s with out := some ⟨.hexp3, .ok (.word12 w)⟩ } →
    exec (.hexp3 b) s = .next { s with out := some ⟨.hexp3, .ok (.word12 w)⟩ } →
    (∀ c ∈ a ++ b, isLowerHex c = false) → a = b) ∧
  (∀ (a b : Chars) (w : Word16) (s : State),
    exec (.hexp4 a) s = .next { s with out := some ⟨.hexp4, .ok (.word16 w)⟩ } →
    exec (.hexp4 b) s = .next { s with out := some ⟨.hexp4, .ok (.word16 w)⟩ } →
    (∀ c ∈ a ++ b, isLowerHex c = false) → a = b) ∧
  (∀ (chars : Chars) (w : Word12) (s : State),
    exec (.hexp3 chars) s = .next { s with out := some ⟨.hexp3, .ok (.word12 w)⟩ } →
    (exec (.hexr3 w) s = .next { s with out := some ⟨.hexr3, .ok (.chars chars)⟩ } ↔
      ∀ c ∈ chars, isLowerHex c = false)) ∧
  (∀ (chars : Chars) (w : Word16) (s : State),
    exec (.hexp4 chars) s = .next { s with out := some ⟨.hexp4, .ok (.word16 w)⟩ } →
    (exec (.hexr4 w) s = .next { s with out := some ⟨.hexr4, .ok (.chars chars)⟩ } ↔
      ∀ c ∈ chars, isLowerHex c = false))

/-! ## The 12-bit schema -/

/-- R55: PACK12 of operands within bounds is the word of their three fields side by side; of others, RangeError. -/
def Obligations.Pack12PacksOrRejects : Prop :=
  ∀ (p d t : Int) (s : State),
    ((0 ≤ p ∧ p ≤ 6) → (0 ≤ d ∧ d ≤ 100) → (0 ≤ t ∧ t ≤ 3) →
      ∃ w : Word12, exec (.pack12 p d t) s = .next { s with out := some ⟨.pack12, .ok (.word12 w)⟩ } ∧
        (w.toNat : Int) = p * 512 + d * 4 + t) ∧
    (¬ ((0 ≤ p ∧ p ≤ 6) ∧ (0 ≤ d ∧ d ≤ 100) ∧ (0 ≤ t ∧ t ≤ 3)) →
      exec (.pack12 p d t) s = .next { s with out := some ⟨.pack12, .error .rangeError⟩ })

/-- R56: UNPACK12 returns the three fields of every word, with no range check. -/
def Obligations.Unpack12ReturnsFields : Prop :=
  ∀ (w : Word12) (s : State), ∃ r : Record12,
    exec (.unpack12 w) s = .next { s with out := some ⟨.unpack12, .ok (.record12 r)⟩ } ∧
    r.pick.toNat = w.toNat / 512 ∧ r.destination.toNat = w.toNat / 4 % 128 ∧ r.status.toNat = w.toNat % 4

/-- R57: UNPACK12 undoes PACK12; PACK12 is injective on what it accepts; PACK12 of unpacked fields is the word itself
for the words with pick up to 6 and destination up to 100, and a RangeError for the others. -/
def Obligations.Pack12AndUnpack12AreInverse : Prop :=
  (∀ (p d t : Int) (w : Word12) (s : State),
    exec (.pack12 p d t) s = .next { s with out := some ⟨.pack12, .ok (.word12 w)⟩ } →
    ∃ r : Record12, exec (.unpack12 w) s = .next { s with out := some ⟨.unpack12, .ok (.record12 r)⟩ } ∧
      (r.pick.toNat : Int) = p ∧ (r.destination.toNat : Int) = d ∧ (r.status.toNat : Int) = t) ∧
  (∀ (p d t p' d' t' : Int) (w : Word12) (s : State),
    exec (.pack12 p d t) s = .next { s with out := some ⟨.pack12, .ok (.word12 w)⟩ } →
    exec (.pack12 p' d' t') s = .next { s with out := some ⟨.pack12, .ok (.word12 w)⟩ } →
    p = p' ∧ d = d' ∧ t = t') ∧
  (∀ (w : Word12) (r : Record12) (s : State),
    exec (.unpack12 w) s = .next { s with out := some ⟨.unpack12, .ok (.record12 r)⟩ } →
    exec (.pack12 r.pick.toNat r.destination.toNat r.status.toNat) s =
      .next { s with out := some ⟨.pack12,
        if r.pick.toNat ≤ 6 ∧ r.destination.toNat ≤ 100 then .ok (.word12 w) else .error .rangeError⟩ })

/-- R58: ENCODE12 is the three digits of the packed word, or PACK12's RangeError. -/
def Obligations.Encode12RendersPackedWord : Prop :=
  ∀ (p d t : Int) (s : State),
    ((0 ≤ p ∧ p ≤ 6) → (0 ≤ d ∧ d ≤ 100) → (0 ≤ t ∧ t ≤ 3) →
      ∃ w : Word12, (w.toNat : Int) = p * 512 + d * 4 + t ∧
        exec (.encode12 p d t) s = .next { s with out := some ⟨.encode12, .ok (.chars
          [hexchar (BitVec.ofNat 4 (w.toNat / 256)), hexchar (BitVec.ofNat 4 (w.toNat / 16)),
           hexchar (BitVec.ofNat 4 w.toNat)])⟩ }) ∧
    (¬ ((0 ≤ p ∧ p ≤ 6) ∧ (0 ≤ d ∧ d ≤ 100) ∧ (0 ≤ t ∧ t ≤ 3)) →
      exec (.encode12 p d t) s = .next { s with out := some ⟨.encode12, .error .rangeError⟩ })

/-- R59: DECODE12 of three valid characters is the record of their word, unchecked; of anything else, FormatError. -/
def Obligations.Decode12UnpacksParsedToken : Prop :=
  (∀ (s : State) (c0 c1 c2 : Byte) (v0 v1 v2 : Nibble), hexval Config.lowerHexOk c0 = some v0 →
    hexval Config.lowerHexOk c1 = some v1 → hexval Config.lowerHexOk c2 = some v2 →
    ∃ r : Record12, exec (.decode12 [c0, c1, c2]) s = .next { s with out := some ⟨.decode12, .ok (.record12 r)⟩ } ∧
      r.pick.toNat * 512 + r.destination.toNat * 4 + r.status.toNat =
        v0.toNat * 256 + v1.toNat * 16 + v2.toNat) ∧
  (∀ (s : State) (chars : Chars), (chars.length ≠ 3 ∨ ∃ c ∈ chars, hexval Config.lowerHexOk c = none) →
    exec (.decode12 chars) s = .next { s with out := some ⟨.decode12, .error .formatError⟩ })

/-- R60: DECODE12 of ENCODE12 gives back every triple within bounds. -/
def Obligations.Decode12UndoesEncode12 : Prop :=
  ∀ (p d t : Int) (s s' : State), (0 ≤ p ∧ p ≤ 6) → (0 ≤ d ∧ d ≤ 100) → (0 ≤ t ∧ t ≤ 3) →
    ∃ (token : Chars) (r : Record12),
      exec (.encode12 p d t) s = .next { s with out := some ⟨.encode12, .ok (.chars token)⟩ } ∧
      exec (.decode12 token) s' = .next { s' with out := some ⟨.decode12, .ok (.record12 r)⟩ } ∧
      (r.pick.toNat : Int) = p ∧ (r.destination.toNat : Int) = d ∧ (r.status.toNat : Int) = t

/-- R61 (with R23 and R90): a batch of `3n` valid characters gives `n` records, record `k` that of the three
characters from offset `3k`; a length that is no multiple of 3, or a bad character anywhere, is a FormatError and no
record. The empty batch (`n = 0`) gives no records by the pseudocode (D19, log entry 11). -/
def Obligations.BatchDecodesChunksInOrder : Prop :=
  (∀ (chars : Chars) (n : Nat) (s : State), chars.length = 3 * n →
    (∀ c ∈ chars, hexval Config.lowerHexOk c ≠ none) →
    ∃ rs : List Record12, rs.length = n ∧
      exec (.decodebatch12 chars) s = .next { s with out := some ⟨.decodebatch12, .ok (.records12 rs)⟩ } ∧
      ∀ (k : Nat) (r : Record12), rs[k]? = some r →
        exec (.decode12 ((chars.drop (3 * k)).take 3)) s =
          .next { s with out := some ⟨.decode12, .ok (.record12 r)⟩ }) ∧
  (∀ (chars : Chars) (s : State),
    (chars.length % 3 ≠ 0 ∨ ∃ c ∈ chars, hexval Config.lowerHexOk c = none) →
    exec (.decodebatch12 chars) s = .next { s with out := some ⟨.decodebatch12, .error .formatError⟩ })

/-- R62: a batch of whole chunks succeeds exactly when every chunk does; and the tokens ENCODE12 gives for any records
within bounds, joined, decode to those records in order. -/
def Obligations.BatchUndoesEncodedSequence : Prop :=
  (∀ (chars : Chars) (n : Nat) (s : State), chars.length = 3 * n →
    ((∃ rs, exec (.decodebatch12 chars) s = .next { s with out := some ⟨.decodebatch12, .ok (.records12 rs)⟩ }) ↔
      ∀ k < n, ∃ r, exec (.decode12 ((chars.drop (3 * k)).take 3)) s =
        .next { s with out := some ⟨.decode12, .ok (.record12 r)⟩ })) ∧
  (∀ (moves : List (Int × Int × Int)) (tokens : List Chars) (s : State), tokens.length = moves.length →
    (∀ (k : Nat) (p d t : Int) (token : Chars), moves[k]? = some (p, d, t) → tokens[k]? = some token →
      exec (.encode12 p d t) s = .next { s with out := some ⟨.encode12, .ok (.chars token)⟩ }) →
    ∃ rs : List Record12,
      exec (.decodebatch12 tokens.flatten) s = .next { s with out := some ⟨.decodebatch12, .ok (.records12 rs)⟩ } ∧
      rs.map (fun r => ((r.pick.toNat : Int), (r.destination.toNat : Int), (r.status.toNat : Int))) = moves)

/-- R29: what each decoder does with the other schema's tokens, the silent case included. -/
def Obligations.OtherSchemaTokens : Prop :=
  (∀ (chars : Chars) (s : State), chars.length = 4 →
    exec (.decode12 chars) s = .next { s with out := some ⟨.decode12, .error .formatError⟩ }) ∧
  (∀ (chars : Chars) (s : State), chars.length = 3 →
    exec (.decode16 chars) s = .next { s with out := some ⟨.decode16, .error .formatError⟩ }) ∧
  (∀ (tokens : List Chars) (s : State),
    (∀ token ∈ tokens, ∃ a b p d, exec (.encode16 a b p d) s =
      .next { s with out := some ⟨.encode16, .ok (.chars token)⟩ }) →
    tokens.length % 3 = 0 →
    ∃ rs : List Record12, rs.length = tokens.length * 4 / 3 ∧ exec (.decodebatch12 tokens.flatten) s =
      .next { s with out := some ⟨.decodebatch12, .ok (.records12 rs)⟩ })

/-- R40: the words PACK12 produces are those with pick up to 6 and destination up to 100; there are 2828 of them. -/
def Obligations.Pack12Produces2828Words : Prop :=
  ∃ produced : List Word12, produced.Nodup ∧ produced.length = 2828 ∧ ∀ w : Word12,
    (w ∈ produced ↔ w.toNat / 512 ≤ 6 ∧ w.toNat / 4 % 128 ≤ 100) ∧
    (w ∈ produced ↔ ∃ p d t : Int, ∀ s : State,
      exec (.pack12 p d t) s = .next { s with out := some ⟨.pack12, .ok (.word12 w)⟩ })

/-! ## The 16-bit schema -/

/-- R65: PICKNORM of range-checked operands, in the order of its tests, the fallback masked to two bits
(the spec's choice D11, log entry 8). -/
def Obligations.PicknormGivesRoleCode : Prop :=
  ∀ (a b p : Int) (s : State), (1 ≤ a ∧ a ≤ 6) → (1 ≤ b ∧ b ≤ 6) → (0 ≤ p ∧ p ≤ 6) →
    ∃ c : BitVec 2, exec (.picknorm a b p) s = .next { s with out := some ⟨.picknorm, .ok (.code c)⟩ } ∧
      (c.toNat : Int) = if p = 0 then 0 else if p = a then 1 else if p = b then 2 else p % 4

/-- PICKNORM of any operands gives some code and no error (R16, R88). Which code it gives for operands outside the range
check R65 does not say: the model's free value, log entry 7, of which this says nothing. -/
def Obligations.PicknormCompletesOnAllOperands : Prop :=
  ∀ a b p : Int, ∃ c : BitVec 2, ∀ s : State,
    exec (.picknorm a b p) s = .next { s with out := some ⟨.picknorm, .ok (.code c)⟩ }

/-- R66: what PICKDENORM makes of PICKNORM's code for the same rolls, row by row of the table. The rows of
a pick that matches neither roll rest on the spec's choice D11 (log entry 8). -/
def Obligations.PicknormThenPickdenormTable : Prop :=
  ∀ (a b : BitVec 3) (p : Int) (s : State), (1 ≤ a.toNat ∧ a.toNat ≤ 6) → (1 ≤ b.toNat ∧ b.toNat ≤ 6) →
    (0 ≤ p ∧ p ≤ 6) →
    ∃ (c : BitVec 2) (back : BitVec 3),
      exec (.picknorm a.toNat b.toNat p) s = .next { s with out := some ⟨.picknorm, .ok (.code c)⟩ } ∧
      exec (.pickdenorm c a b) s = .next { s with out := some ⟨.pickdenorm, .ok (.pick back)⟩ } ∧
      (back.toNat : Int) = (if p = 0 ∨ p = a.toNat ∨ p = b.toNat ∨ p = 3 then p
        else if p = 1 ∨ p = 5 then a.toNat else if p = 2 ∨ p = 6 then b.toNat else 0)

/-- R67: PAR15 is the population count of the payload modulo 2. -/
def Obligations.Par15IsPopulationCountMod2 : Prop :=
  ∀ (v : Payload) (s : State), ∃ q : BitVec 1,
    exec (.par15 v) s = .next { s with out := some ⟨.par15, .ok (.parity q)⟩ } ∧
    q.toNat = (List.range 15).countP (fun k => v.getLsbD k) % 2

/-- R67's other form: the exclusive or of the fifteen bits. -/
def Obligations.Par15IsXorTree : Prop :=
  ∀ (v : Payload) (s : State), exec (.par15 v) s = .next { s with out := some ⟨.par15, .ok (.parity (BitVec.ofBool
    (v.getLsbD 14 ^^ v.getLsbD 13 ^^ v.getLsbD 12 ^^ v.getLsbD 11 ^^ v.getLsbD 10 ^^ v.getLsbD 9 ^^ v.getLsbD 8
      ^^ v.getLsbD 7 ^^ v.getLsbD 6 ^^ v.getLsbD 5 ^^ v.getLsbD 4 ^^ v.getLsbD 3 ^^ v.getLsbD 2 ^^ v.getLsbD 1
      ^^ v.getLsbD 0)))⟩ }

/-- R68: a word passes exactly when it has an even number of ones; of a passing word, exactly the even masks give a
passing word again; a failing word is rejected and nothing is corrected; PAR15 is linear. -/
def Obligations.ParityDetectsOddErrorsOnly : Prop :=
  (∀ (w : Word16) (s : State),
    (∃ r, exec (.unpack16 w) s = .next { s with out := some ⟨.unpack16, .ok (.record16 r)⟩ }) ↔
      (List.range 16).countP (fun k => w.getLsbD k) % 2 = 0) ∧
  (∀ (w mask : Word16) (r : Record16) (s : State),
    exec (.unpack16 w) s = .next { s with out := some ⟨.unpack16, .ok (.record16 r)⟩ } →
    ((List.range 16).countP (fun k => mask.getLsbD k) % 2 = 0 →
      ∃ r', exec (.unpack16 (w ^^^ mask)) s = .next { s with out := some ⟨.unpack16, .ok (.record16 r')⟩ }) ∧
    ((List.range 16).countP (fun k => mask.getLsbD k) % 2 = 1 →
      exec (.unpack16 (w ^^^ mask)) s = .next { s with out := some ⟨.unpack16, .error .integrityError⟩ })) ∧
  (∀ (v v' : Payload) (q q' : BitVec 1) (s : State),
    exec (.par15 v) s = .next { s with out := some ⟨.par15, .ok (.parity q)⟩ } →
    exec (.par15 v') s = .next { s with out := some ⟨.par15, .ok (.parity q')⟩ } →
    exec (.par15 (v ^^^ v')) s = .next { s with out := some ⟨.par15, .ok (.parity (q ^^^ q'))⟩ })

/-- R41: exactly half of the 65536 words fail the parity check. -/
def Obligations.HalfOfTheWordsPassParity : Prop :=
  ∃ passing : List Word16, passing.Nodup ∧ passing.length = 32768 ∧ ∀ (w : Word16) (s : State),
    (w ∈ passing → ∃ r, exec (.unpack16 w) s = .next { s with out := some ⟨.unpack16, .ok (.record16 r)⟩ }) ∧
    (w ∉ passing → exec (.unpack16 w) s = .next { s with out := some ⟨.unpack16, .error .integrityError⟩ })

/-- R69: PACK16 of operands within bounds is the word of its four fields and the parity bit of the upper fifteen; of
others, RangeError. The code of a pick that matches neither roll is the spec's choice D11 (log entry 8). -/
def Obligations.Pack16PacksOrRejects : Prop :=
  ∀ (a b p d : Int) (s : State),
    ((1 ≤ a ∧ a ≤ 6) → (1 ≤ b ∧ b ≤ 6) → (0 ≤ p ∧ p ≤ 6) → (0 ≤ d ∧ d ≤ 127) →
      ∃ w : Word16, exec (.pack16 a b p d) s = .next { s with out := some ⟨.pack16, .ok (.word16 w)⟩ } ∧
        (w.toNat : Int) = a * 8192 + b * 1024
          + (if p = 0 then 0 else if p = a then 1 else if p = b then 2 else p % 4) * 256 + d * 2
          + ((List.range 15).countP (fun k => w.getLsbD (k + 1)) % 2 : Nat)) ∧
    (¬ ((1 ≤ a ∧ a ≤ 6) ∧ (1 ≤ b ∧ b ≤ 6) ∧ (0 ≤ p ∧ p ≤ 6) ∧ (0 ≤ d ∧ d ≤ 127)) →
      exec (.pack16 a b p d) s = .next { s with out := some ⟨.pack16, .error .rangeError⟩ })

/-- R70: two accepted tuples give one word exactly when rolls, destination and code agree; so PACK16 is injective on
picks in 0, roll1, roll2, 3, and not on all. The code of a pick that matches neither roll, so too the last clause, is
the spec's choice D11 (log entry 8). -/
def Obligations.Pack16CollidesExactlyOnEqualCodes : Prop :=
  (∀ (a b p d a' b' p' d' : Int) (w w' : Word16) (s : State),
    exec (.pack16 a b p d) s = .next { s with out := some ⟨.pack16, .ok (.word16 w)⟩ } →
    exec (.pack16 a' b' p' d') s = .next { s with out := some ⟨.pack16, .ok (.word16 w')⟩ } →
    ((w = w' ↔ a = a' ∧ b = b' ∧ d = d' ∧
      (if p = 0 then 0 else if p = a then 1 else if p = b then 2 else p % 4) =
      (if p' = 0 then 0 else if p' = a' then 1 else if p' = b' then 2 else p' % 4)) ∧
     ((p = 0 ∨ p = a ∨ p = b ∨ p = 3) → (p' = 0 ∨ p' = a' ∨ p' = b' ∨ p' = 3) → w = w' →
      a = a' ∧ b = b' ∧ p = p' ∧ d = d'))) ∧
  (∀ s : State, exec (.pack16 3 5 0 42) s = .next { s with out := some ⟨.pack16, .ok (.word16 0x7455#16)⟩ } ∧
    exec (.pack16 3 5 4 42) s = .next { s with out := some ⟨.pack16, .ok (.word16 0x7455#16)⟩ })

/-- R72: PICKDENORM of each code; code 3 comes back as 3. -/
def Obligations.PickdenormReversesCode : Prop :=
  ∀ (a b : BitVec 3) (s : State),
    exec (.pickdenorm 0#2 a b) s = .next { s with out := some ⟨.pickdenorm, .ok (.pick 0#3)⟩ } ∧
    exec (.pickdenorm 1#2 a b) s = .next { s with out := some ⟨.pickdenorm, .ok (.pick a)⟩ } ∧
    exec (.pickdenorm 2#2 a b) s = .next { s with out := some ⟨.pickdenorm, .ok (.pick b)⟩ } ∧
    exec (.pickdenorm 3#2 a b) s = .next { s with out := some ⟨.pickdenorm, .ok (.pick 3#3)⟩ }

/-- R73 with R71: UNPACK16 rejects a word whose parity bit is not the population count of its payload modulo 2, and
returns the fields of every other word, the pick taken back from its code. -/
def Obligations.Unpack16ChecksThenReturnsFields : Prop :=
  ∀ (w : Word16) (s : State),
    ((List.range 15).countP (fun k => w.getLsbD (k + 1)) % 2 = w.toNat % 2 →
      ∃ r : Record16, exec (.unpack16 w) s = .next { s with out := some ⟨.unpack16, .ok (.record16 r)⟩ } ∧
        r.roll1.toNat = w.toNat / 8192 ∧ r.roll2.toNat = w.toNat / 1024 % 8 ∧
        r.destination.toNat = w.toNat / 2 % 128 ∧
        r.pick.toNat = (if w.toNat / 256 % 4 = 0 then 0 else if w.toNat / 256 % 4 = 1 then w.toNat / 8192
          else if w.toNat / 256 % 4 = 2 then w.toNat / 1024 % 8 else 3)) ∧
    ((List.range 15).countP (fun k => w.getLsbD (k + 1)) % 2 ≠ w.toNat % 2 →
      exec (.unpack16 w) s = .next { s with out := some ⟨.unpack16, .error .integrityError⟩ })

/-- R74 (a) and (b): what UNPACK16 makes of a word PACK16 gave. Rolls and destination come back; the pick comes back
exactly when it is 0, a roll or 3, and is else the decoded pick of R66. What a pick that matches neither roll, 3 included,
comes back as rests on the spec's choice D11 (log entry 8). -/
def Obligations.Unpack16OfPack16 : Prop :=
  ∀ (a b p d : Int) (w : Word16) (s : State),
    exec (.pack16 a b p d) s = .next { s with out := some ⟨.pack16, .ok (.word16 w)⟩ } →
    ∃ r : Record16, exec (.unpack16 w) s = .next { s with out := some ⟨.unpack16, .ok (.record16 r)⟩ } ∧
      (r.roll1.toNat : Int) = a ∧ (r.roll2.toNat : Int) = b ∧ (r.destination.toNat : Int) = d ∧
      ((r.pick.toNat : Int) = p ↔ p = 0 ∨ p = a ∨ p = b ∨ p = 3) ∧
      (r.pick.toNat : Int) = (if p = 0 ∨ p = a ∨ p = b ∨ p = 3 then p
        else if p = 1 ∨ p = 5 then a else if p = 2 ∨ p = 6 then b else 0)

/-- R74 (c): packing again what UNPACK16 returned. A roll of 0 or 7 is a RangeError; else the word itself comes back,
except for pick-code 2 with equal rolls and pick-code 3 beside a roll of 3, where another word that passes comes. That
pick-code 3 packs again through the fallback rests on the spec's choice D11 (log entry 8). -/
def Obligations.Pack16OfUnpack16 : Prop :=
  ∀ (w : Word16) (r : Record16) (s : State),
    exec (.unpack16 w) s = .next { s with out := some ⟨.unpack16, .ok (.record16 r)⟩ } →
    ((r.roll1 = 0#3 ∨ r.roll1 = 7#3 ∨ r.roll2 = 0#3 ∨ r.roll2 = 7#3) →
      exec (.pack16 r.roll1.toNat r.roll2.toNat r.pick.toNat r.destination.toNat) s =
        .next { s with out := some ⟨.pack16, .error .rangeError⟩ }) ∧
    (¬ (r.roll1 = 0#3 ∨ r.roll1 = 7#3 ∨ r.roll2 = 0#3 ∨ r.roll2 = 7#3) →
      ∃ w' : Word16, exec (.pack16 r.roll1.toNat r.roll2.toNat r.pick.toNat r.destination.toNat) s =
          .next { s with out := some ⟨.pack16, .ok (.word16 w')⟩ } ∧
        (w' = w ↔ ¬ ((w.toNat / 256 % 4 = 2 ∧ r.roll1 = r.roll2) ∨
          (w.toNat / 256 % 4 = 3 ∧ (r.roll1 = 3#3 ∨ r.roll2 = 3#3)))) ∧
        exec (.unpack16 w') s = .next { s with out := some ⟨.unpack16, .ok (.record16 r)⟩ })

/-- R41 with R42: the words PACK16 produces are those that pass the check, hold rolls in 1 to 6, and hold pick-code 3
only where neither roll is 3. That code 3, and code 2 beside equal rolls, is produced at all rests on the fallback, the
spec's choice D11 (log entry 8). -/
def Obligations.Pack16ProducedWords : Prop :=
  ∀ w : Word16, (∃ a b p d : Int, ∀ s : State,
      exec (.pack16 a b p d) s = .next { s with out := some ⟨.pack16, .ok (.word16 w)⟩ }) ↔
    (List.range 16).countP (fun k => w.getLsbD k) % 2 = 0 ∧
    (1 ≤ w.toNat / 8192 ∧ w.toNat / 8192 ≤ 6) ∧ (1 ≤ w.toNat / 1024 % 8 ∧ w.toNat / 1024 % 8 ≤ 6) ∧
    (w.toNat / 256 % 4 = 3 → w.toNat / 8192 ≠ 3 ∧ w.toNat / 1024 % 8 ≠ 3)

/-- R75: ENCODE16 is the four digits of the packed word, or PACK16's RangeError. -/
def Obligations.Encode16RendersPackedWord : Prop :=
  ∀ (a b p d : Int) (s : State),
    ((1 ≤ a ∧ a ≤ 6) → (1 ≤ b ∧ b ≤ 6) → (0 ≤ p ∧ p ≤ 6) → (0 ≤ d ∧ d ≤ 127) →
      ∃ w : Word16, exec (.pack16 a b p d) s = .next { s with out := some ⟨.pack16, .ok (.word16 w)⟩ } ∧
        exec (.encode16 a b p d) s = .next { s with out := some ⟨.encode16, .ok (.chars
          [hexchar (BitVec.ofNat 4 (w.toNat / 4096)), hexchar (BitVec.ofNat 4 (w.toNat / 256)),
           hexchar (BitVec.ofNat 4 (w.toNat / 16)), hexchar (BitVec.ofNat 4 w.toNat)])⟩ }) ∧
    (¬ ((1 ≤ a ∧ a ≤ 6) ∧ (1 ≤ b ∧ b ≤ 6) ∧ (0 ≤ p ∧ p ≤ 6) ∧ (0 ≤ d ∧ d ≤ 127)) →
      exec (.encode16 a b p d) s = .next { s with out := some ⟨.encode16, .error .rangeError⟩ })

/-- R76 with R89: DECODE16 of text that is not four valid characters is a FormatError, whatever the parity would be; of
four valid characters, what UNPACK16 gives for their word: its record or its IntegrityError. -/
def Obligations.Decode16ParsesThenUnpacks : Prop :=
  (∀ (s : State) (c0 c1 c2 c3 : Byte) (v0 v1 v2 v3 : Nibble), hexval Config.lowerHexOk c0 = some v0 →
    hexval Config.lowerHexOk c1 = some v1 → hexval Config.lowerHexOk c2 = some v2 →
    hexval Config.lowerHexOk c3 = some v3 →
    ∃ (w : Word16) (result : Result), w.toNat = v0.toNat * 4096 + v1.toNat * 256 + v2.toNat * 16 + v3.toNat ∧
      exec (.unpack16 w) s = .next { s with out := some ⟨.unpack16, result⟩ } ∧
      exec (.decode16 [c0, c1, c2, c3]) s = .next { s with out := some ⟨.decode16, result⟩ }) ∧
  (∀ (s : State) (chars : Chars), (chars.length ≠ 4 ∨ ∃ c ∈ chars, hexval Config.lowerHexOk c = none) →
    exec (.decode16 chars) s = .next { s with out := some ⟨.decode16, .error .formatError⟩ })

/-- R77: DECODE16 of ENCODE16 gives back rolls and destination always, and the whole tuple exactly for picks in 0,
roll1, roll2, 3. What it says of picks that match neither roll, 3 included, rests on the spec's choice D11 (log
entry 8). -/
def Obligations.Decode16OfEncode16 : Prop :=
  ∀ (a b p d : Int) (s s' : State),
    (1 ≤ a ∧ a ≤ 6) → (1 ≤ b ∧ b ≤ 6) → (0 ≤ p ∧ p ≤ 6) → (0 ≤ d ∧ d ≤ 127) →
    ∃ (token : Chars) (r : Record16),
      exec (.encode16 a b p d) s = .next { s with out := some ⟨.encode16, .ok (.chars token)⟩ } ∧
      exec (.decode16 token) s' = .next { s' with out := some ⟨.decode16, .ok (.record16 r)⟩ } ∧
      (r.roll1.toNat : Int) = a ∧ (r.roll2.toNat : Int) = b ∧ (r.destination.toNat : Int) = d ∧
      ((r.pick.toNat : Int) = p ↔ p = 0 ∨ p = a ∨ p = b ∨ p = 3)

/-- R78 (C6): inverting any one bit of the word of a token that decodes makes DECODE16 of the new word's token raise
IntegrityError; inverting a bit of a character's code need not: `8A4A` with bit 6 of `8` inverted is a FormatError, with
bit 1 of its first `A` inverted it decodes (codes by D6). -/
def Obligations.SingleBitErrorsAreDetected : Prop :=
  (∀ (w : Word16) (b : Nat) (r : Record16) (token : Chars) (s : State),
    exec (.unpack16 w) s = .next { s with out := some ⟨.unpack16, .ok (.record16 r)⟩ } → b < 16 →
    exec (.hexr4 (w ^^^ (1#16 <<< b))) s = .next { s with out := some ⟨.hexr4, .ok (.chars token)⟩ } →
    exec (.decode16 token) s = .next { s with out := some ⟨.decode16, .error .integrityError⟩ }) ∧
  (∀ s : State,
    exec (.decode16 [0x38#8, 0x41#8, 0x34#8, 0x41#8]) s =
      .next { s with out := some ⟨.decode16, .ok (.record16 ⟨4#3, 2#3, 2#3, 37#7⟩)⟩ } ∧
    exec (.decode16 [0x38#8 ^^^ 0x40#8, 0x41#8, 0x34#8, 0x41#8]) s =
      .next { s with out := some ⟨.decode16, .error .formatError⟩ } ∧
    exec (.decode16 [0x38#8, 0x41#8 ^^^ 0x02#8, 0x34#8, 0x41#8]) s =
      .next { s with out := some ⟨.decode16, .ok (.record16 ⟨4#3, 3#3, 0#3, 37#7⟩)⟩ })
end

