-- ==== Sys2Proof/Laws/State.lean ====
section
/-! SUPPORT. The fields of a state after each update. -/

namespace Sys2Proof.Machine

/-- Any two states hold the same block state: the unit type has one value (R10). -/
theorem State.block_eq (s t : State) : s.block = t.block := rfl

@[simp] theorem State.present_block (s : State) (op : Op) (r : Result) : (s.present op r).block = s.block := rfl

@[simp] theorem State.present_inputs (s : State) (op : Op) (r : Result) : (s.present op r).inputs = s.inputs := rfl

@[simp] theorem State.present_out (s : State) (op : Op) (r : Result) :
    (s.present op r).out = some { op := op, result := r } := rfl

@[simp] theorem State.present_present (s : State) (op op' : Op) (r r' : Result) :
    (s.present op r).present op' r' = s.present op' r' := rfl

theorem State.present_err (s : State) (op : Op) (r : Result) : (s.present op r).err = some (Result.err r) := rfl

@[simp] theorem State.reset_block : State.reset.block = () := rfl

@[simp] theorem State.reset_inputs : State.reset.inputs = [] := rfl

@[simp] theorem State.reset_out : State.reset.out = none := rfl

end Sys2Proof.Machine
end

