-- ==== Sys2Proof/Laws/Ops.lean ====
section
/-! SUPPORT. What each shared operation does. -/

namespace Sys2Proof.Machine

/-- Ending an operation always answers a next state, the unit's result on the outputs. -/
theorem deliver_eq {α : Type} (op : Op) (wrap : α → Value) (r : Except ErrorKind α) (s : State) :
    deliver op wrap r s = .next (s.present op (r.map wrap)) := by
  cases r <;> rfl

theorem complete_eq (op : Op) (v : Value) (s : State) : complete op v s = .next (s.present op (.ok v)) := rfl

theorem raiseError_eq (op : Op) (e : ErrorKind) (s : State) :
    raiseError op e s = .next (s.present op (.error e)) := rfl

/-- An extracted field is the slice of R5. -/
theorem takeField_toNat {n : Nat} (w : BitVec n) (shift width : Nat) :
    (takeField w shift width).toNat = w.toNat / 2 ^ shift % 2 ^ width := by
  simp [takeField, BitVec.extractLsb'_toNat, Nat.shiftRight_eq_div_pow]

/-- An extracted field, bit by bit. -/
theorem takeField_getLsbD {n : Nat} (w : BitVec n) (shift width k : Nat) :
    (takeField w shift width).getLsbD k = (decide (k < width) && w.getLsbD (shift + k)) := by
  simp [takeField]

theorem inClosed_iff {lo hi x : Int} : inClosed lo hi x = true ↔ lo ≤ x ∧ x ≤ hi := by
  simp [inClosed]

theorem accepts12_iff {p d t : Int} :
    accepts12 p d t = true ↔ (0 ≤ p ∧ p ≤ 6) ∧ (0 ≤ d ∧ d ≤ 100) ∧ (0 ≤ t ∧ t ≤ 3) := by
  simp [accepts12, inClosed_iff, and_assoc]

theorem acceptsRolls_iff {a b p : Int} :
    acceptsRolls a b p = true ↔ (1 ≤ a ∧ a ≤ 6) ∧ (1 ≤ b ∧ b ≤ 6) ∧ (0 ≤ p ∧ p ≤ 6) := by
  simp [acceptsRolls, inClosed_iff, and_assoc]

theorem accepts16_iff {a b p d : Int} :
    accepts16 a b p d = true ↔ (1 ≤ a ∧ a ≤ 6) ∧ (1 ≤ b ∧ b ≤ 6) ∧ (0 ≤ p ∧ p ≤ 6) ∧ (0 ≤ d ∧ d ≤ 127) := by
  simp [accepts16, acceptsRolls_iff, inClosed_iff, and_assoc]

theorem chunks3_length (s : Chars) : (chunks3 s).length = s.length / 3 := by
  fun_induction chunks3 s with
  | case1 a b c rest ih => simp [ih]; omega
  | case2 s h =>
    rcases s with _ | ⟨a, _ | ⟨b, _ | ⟨c, t⟩⟩⟩
    · simp
    · simp
    · simp
    · exact (h a b c t rfl).elim

/-- Chunk `k` is the three characters from offset `3k` (R23). -/
theorem chunks3_getElem? (s : Chars) (k : Nat) (h : k < s.length / 3) :
    (chunks3 s)[k]? = some ((s.drop (3 * k)).take 3) := by
  fun_induction chunks3 s generalizing k with
  | case1 a b c rest ih =>
    cases k with
    | zero => simp
    | succ k =>
      have hk : k < rest.length / 3 := by simp at h; omega
      simpa [Nat.mul_succ] using ih k hk
  | case2 s h' =>
    exfalso
    rcases s with _ | ⟨a, _ | ⟨b, _ | ⟨c, t⟩⟩⟩
    · simp at h
    · simp at h
    · simp at h
    · exact h' a b c t rfl

/-- Three characters ahead of a batch are its first chunk. -/
theorem chunks3_append (t s : Chars) (h : t.length = 3) : chunks3 (t ++ s) = t :: chunks3 s := by
  rcases t with _ | ⟨a, _ | ⟨b, _ | ⟨c, _ | ⟨d, t⟩⟩⟩⟩ <;> simp [chunks3] at h ⊢

end Sys2Proof.Machine
end

