-- ==== Sys2Proof/Laws/TokenHex.lean ====
section
/-! SUPPORT. What the token layer does (R45 to R51). -/

namespace Sys2Proof.Machine

/-- Rendering never produces a character that parsing rejects, whatever `LOWER_HEX_OK` (R51). -/
@[simp] theorem hexval_hexchar (lower : Bool) (v : Nibble) : hexval lower (hexchar v) = some v := by
  revert v; cases lower <;> decide

/-- HEXP3 on three digit characters. -/
theorem hexp3_digits {lower : Bool} {c0 c1 c2 : Byte} {v0 v1 v2 : Nibble} (h0 : hexval lower c0 = some v0)
    (h1 : hexval lower c1 = some v1) (h2 : hexval lower c2 = some v2) :
    hexp3 lower [c0, c1, c2] =
      .ok ((v0.setWidth 12 <<< 8) ||| (v1.setWidth 12 <<< 4) ||| v2.setWidth 12) := by
  simp [hexp3, h0, h1, h2]

/-- HEXP4 on four digit characters. -/
theorem hexp4_digits {lower : Bool} {c0 c1 c2 c3 : Byte} {v0 v1 v2 v3 : Nibble} (h0 : hexval lower c0 = some v0)
    (h1 : hexval lower c1 = some v1) (h2 : hexval lower c2 = some v2) (h3 : hexval lower c3 = some v3) :
    hexp4 lower [c0, c1, c2, c3] =
      .ok ((v0.setWidth 16 <<< 12) ||| (v1.setWidth 16 <<< 8) ||| (v2.setWidth 16 <<< 4) ||| v3.setWidth 16) := by
  simp [hexp4, h0, h1, h2, h3]

/-- Everything HEXP3 can do: three digit characters and their word, or a FormatError. -/
theorem hexp3_cases (lower : Bool) (s : Chars) :
    (∃ c0 c1 c2 v0 v1 v2, s = [c0, c1, c2] ∧ hexval lower c0 = some v0 ∧ hexval lower c1 = some v1
      ∧ hexval lower c2 = some v2) ∨
    ((s.length ≠ 3 ∨ ∃ c ∈ s, hexval lower c = none) ∧ hexp3 lower s = .error .formatError) := by
  rcases s with _ | ⟨c0, _ | ⟨c1, _ | ⟨c2, _ | ⟨c3, t⟩⟩⟩⟩
  case cons.cons.cons.nil =>
    rcases h0 : hexval lower c0 with _ | v0
    · exact .inr ⟨.inr ⟨c0, by simp, h0⟩, by simp [hexp3, h0]⟩
    rcases h1 : hexval lower c1 with _ | v1
    · exact .inr ⟨.inr ⟨c1, by simp, h1⟩, by simp [hexp3, h0, h1]⟩
    rcases h2 : hexval lower c2 with _ | v2
    · exact .inr ⟨.inr ⟨c2, by simp, h2⟩, by simp [hexp3, h0, h1, h2]⟩
    · exact .inl ⟨c0, c1, c2, v0, v1, v2, rfl, h0, h1, h2⟩
  all_goals exact .inr ⟨.inl (by simp), rfl⟩

/-- Everything HEXP4 can do: four digit characters and their word, or a FormatError. -/
theorem hexp4_cases (lower : Bool) (s : Chars) :
    (∃ c0 c1 c2 c3 v0 v1 v2 v3, s = [c0, c1, c2, c3] ∧ hexval lower c0 = some v0 ∧ hexval lower c1 = some v1
      ∧ hexval lower c2 = some v2 ∧ hexval lower c3 = some v3) ∨
    ((s.length ≠ 4 ∨ ∃ c ∈ s, hexval lower c = none) ∧ hexp4 lower s = .error .formatError) := by
  rcases s with _ | ⟨c0, _ | ⟨c1, _ | ⟨c2, _ | ⟨c3, _ | ⟨c4, t⟩⟩⟩⟩⟩
  case cons.cons.cons.cons.nil =>
    rcases h0 : hexval lower c0 with _ | v0
    · exact .inr ⟨.inr ⟨c0, by simp, h0⟩, by simp [hexp4, h0]⟩
    rcases h1 : hexval lower c1 with _ | v1
    · exact .inr ⟨.inr ⟨c1, by simp, h1⟩, by simp [hexp4, h0, h1]⟩
    rcases h2 : hexval lower c2 with _ | v2
    · exact .inr ⟨.inr ⟨c2, by simp, h2⟩, by simp [hexp4, h0, h1, h2]⟩
    rcases h3 : hexval lower c3 with _ | v3
    · exact .inr ⟨.inr ⟨c3, by simp, h3⟩, by simp [hexp4, h0, h1, h2, h3]⟩
    · exact .inl ⟨c0, c1, c2, c3, v0, v1, v2, v3, rfl, h0, h1, h2, h3⟩
  all_goals exact .inr ⟨.inl (by simp), rfl⟩

/-- The nibbles of a 12-bit word, put together again. -/
theorem nibbles12 (w : Word12) :
    ((takeField w 8 4).setWidth 12 <<< 8) ||| ((takeField w 4 4).setWidth 12 <<< 4) ||| (takeField w 0 4).setWidth 12
      = w := by
  apply BitVec.eq_of_getLsbD_eq
  intro i hi
  interval_cases i <;> simp [takeField]

/-- The nibbles of a 16-bit word, put together again. -/
theorem nibbles16 (w : Word16) :
    ((takeField w 12 4).setWidth 16 <<< 12) ||| ((takeField w 8 4).setWidth 16 <<< 8)
      ||| ((takeField w 4 4).setWidth 16 <<< 4) ||| (takeField w 0 4).setWidth 16 = w := by
  apply BitVec.eq_of_getLsbD_eq
  intro i hi
  interval_cases i <;> simp [takeField]

/-- A rendered 12-bit word parses to itself. -/
@[simp] theorem hexp3_hexr3 (lower : Bool) (w : Word12) : hexp3 lower (hexr3 w) = .ok w := by
  rw [hexr3, hexp3_digits (hexval_hexchar _ _) (hexval_hexchar _ _) (hexval_hexchar _ _), nibbles12]

/-- A rendered 16-bit word parses to itself. -/
@[simp] theorem hexp4_hexr4 (lower : Bool) (w : Word16) : hexp4 lower (hexr4 w) = .ok w := by
  rw [hexr4, hexp4_digits (hexval_hexchar _ _) (hexval_hexchar _ _) (hexval_hexchar _ _) (hexval_hexchar _ _),
    nibbles16]

/-- Rendering a parsed character raises its case and changes nothing else (R46, R51). -/
theorem hexchar_of_hexval {lower : Bool} {c : Byte} {v : Nibble} (h : hexval lower c = some v) :
    hexchar v = raiseCase c := by
  revert v; revert c; cases lower <;> decide

/-- A character stays as it is exactly when it is no lowercase digit (R51). -/
theorem raiseCase_eq_self_iff (c : Byte) : raiseCase c = c ↔ isLowerHex c = false := by
  revert c; decide

/-- Rendering what HEXP3 parsed is the text with its lowercase letters raised (R51). -/
theorem hexr3_of_hexp3 {lower : Bool} {s : Chars} {w : Word12} (h : hexp3 lower s = .ok w) :
    hexr3 w = s.map raiseCase := by
  rcases hexp3_cases lower s with ⟨c0, c1, c2, v0, v1, v2, rfl, h0, h1, h2⟩ | ⟨-, he⟩
  · rw [hexp3_digits h0 h1 h2] at h
    cases h
    simp only [hexr3, List.map_cons, List.map_nil, ← hexchar_of_hexval h0, ← hexchar_of_hexval h1,
      ← hexchar_of_hexval h2]
    congr 1
    · congr 1; apply BitVec.eq_of_getLsbD_eq; intro i hi; interval_cases i <;> simp [takeField]
    congr 1
    · congr 1; apply BitVec.eq_of_getLsbD_eq; intro i hi; interval_cases i <;> simp [takeField]
    congr 1
    · congr 1; apply BitVec.eq_of_getLsbD_eq; intro i hi; interval_cases i <;> simp [takeField]
  · rw [he] at h; cases h

/-- Rendering what HEXP4 parsed is the text with its lowercase letters raised (R51). -/
theorem hexr4_of_hexp4 {lower : Bool} {s : Chars} {w : Word16} (h : hexp4 lower s = .ok w) :
    hexr4 w = s.map raiseCase := by
  rcases hexp4_cases lower s with ⟨c0, c1, c2, c3, v0, v1, v2, v3, rfl, h0, h1, h2, h3⟩ | ⟨-, he⟩
  · rw [hexp4_digits h0 h1 h2 h3] at h
    cases h
    simp only [hexr4, List.map_cons, List.map_nil, ← hexchar_of_hexval h0, ← hexchar_of_hexval h1,
      ← hexchar_of_hexval h2, ← hexchar_of_hexval h3]
    congr 1
    · congr 1; apply BitVec.eq_of_getLsbD_eq; intro i hi; interval_cases i <;> simp [takeField]
    congr 1
    · congr 1; apply BitVec.eq_of_getLsbD_eq; intro i hi; interval_cases i <;> simp [takeField]
    congr 1
    · congr 1; apply BitVec.eq_of_getLsbD_eq; intro i hi; interval_cases i <;> simp [takeField]
    congr 1
    · congr 1; apply BitVec.eq_of_getLsbD_eq; intro i hi; interval_cases i <;> simp [takeField]
  · rw [he] at h; cases h

/-- A text is unchanged by raising its case exactly when it has no lowercase digit (R51). -/
theorem map_raiseCase_eq_iff (s : Chars) : s.map raiseCase = s ↔ ∀ c ∈ s, isLowerHex c = false := by
  induction s with
  | nil => simp
  | cons c s ih => simp [ih, raiseCase_eq_self_iff]

/-- HEXR3 is injective (R51). -/
theorem hexr3_injective {w w' : Word12} (h : hexr3 w = hexr3 w') : w = w' := by
  have e := hexp3_hexr3 true w
  rw [h, hexp3_hexr3] at e
  exact (Except.ok.inj e).symm

/-- HEXR4 is injective (R51). -/
theorem hexr4_injective {w w' : Word16} (h : hexr4 w = hexr4 w') : w = w' := by
  have e := hexp4_hexr4 true w
  rw [h, hexp4_hexr4] at e
  exact (Except.ok.inj e).symm

/-- HEXP3 is injective on uppercase input (R51). -/
theorem hexp3_injective {lower : Bool} {s s' : Chars} {w : Word12} (h : hexp3 lower s = .ok w)
    (h' : hexp3 lower s' = .ok w) (hs : ∀ c ∈ s, isLowerHex c = false) (hs' : ∀ c ∈ s', isLowerHex c = false) :
    s = s' := by
  rw [← (map_raiseCase_eq_iff s).2 hs, ← (map_raiseCase_eq_iff s').2 hs', ← hexr3_of_hexp3 h, hexr3_of_hexp3 h']

/-- HEXP4 is injective on uppercase input (R51). -/
theorem hexp4_injective {lower : Bool} {s s' : Chars} {w : Word16} (h : hexp4 lower s = .ok w)
    (h' : hexp4 lower s' = .ok w) (hs : ∀ c ∈ s, isLowerHex c = false) (hs' : ∀ c ∈ s', isLowerHex c = false) :
    s = s' := by
  rw [← (map_raiseCase_eq_iff s).2 hs, ← (map_raiseCase_eq_iff s').2 hs', ← hexr4_of_hexp4 h, hexr4_of_hexp4 h']

@[simp] theorem hexr3_length (w : Word12) : (hexr3 w).length = 3 := rfl

@[simp] theorem hexr4_length (w : Word16) : (hexr4 w).length = 4 := rfl

end Sys2Proof.Machine
end

