-- ==== Sys2Proof/Laws/Codec12.lean ====
section
/-! SUPPORT. What the units of the 12-bit schema do (R55 to R62). -/

namespace Sys2Proof.Machine

/-- A field value that fits its field is placed unchanged (R36). -/
theorem placeField_toNat {n width shift : Nat} {v : Int} (h0 : 0 ≤ v) (h : v < 2 ^ width) (hn : width + shift ≤ n) :
    (placeField n width shift v).toNat = v.toNat <<< shift := by
  obtain ⟨a, rfl⟩ := Int.eq_ofNat_of_zero_le h0
  have ha : a < 2 ^ width := by exact_mod_cast h
  have hw : 2 ^ width ≤ 2 ^ n := Nat.pow_le_pow_right (by decide) (by omega)
  have hs : a * 2 ^ shift < 2 ^ n := calc
    a * 2 ^ shift < 2 ^ width * 2 ^ shift := Nat.mul_lt_mul_of_pos_right ha (Nat.two_pow_pos _)
    _ = 2 ^ (width + shift) := (Nat.pow_add ..).symm
    _ ≤ 2 ^ n := Nat.pow_le_pow_right (by decide) hn
  have hpos := Nat.two_pow_pos width
  simp only [placeField, BitVec.toNat_shiftLeft, BitVec.toNat_and, BitVec.toNat_ofNat, BitVec.ofInt_natCast,
    Int.toNat_natCast]
  rw [Nat.mod_eq_of_lt (show a < 2 ^ n by omega), Nat.mod_eq_of_lt (show 2 ^ width - 1 < 2 ^ n by omega),
    Nat.and_two_pow_sub_one_of_lt_two_pow ha, Nat.shiftLeft_eq, Nat.mod_eq_of_lt hs]

/-- PACK12 on operands outside a bound. -/
theorem pack12_reject {p d t : Int} (h : accepts12 p d t = false) : pack12 p d t = .error .rangeError := by
  simp [pack12, h]

/-- PACK12 on accepted operands: one word, its fields side by side. -/
theorem pack12_accept {p d t : Int} (h : accepts12 p d t = true) :
    ∃ w : Word12, pack12 p d t = .ok w ∧ (w.toNat : Int) = p * 512 + d * 4 + t := by
  refine ⟨_, by simp only [pack12, h, if_true]; rfl, ?_⟩
  obtain ⟨⟨hp, hp'⟩, ⟨hd, hd'⟩, ht, ht'⟩ := accepts12_iff.1 h
  rw [BitVec.toNat_or, BitVec.toNat_or, placeField_toNat hp (by omega) (by decide),
    placeField_toNat hd (by omega) (by decide), placeField_toNat ht (by omega) (by decide), Nat.or_assoc,
    Nat.shiftLeft_zero, ← Nat.shiftLeft_add_eq_or_of_lt (show t.toNat < 2 ^ 2 by omega),
    ← Nat.shiftLeft_add_eq_or_of_lt (show d.toNat <<< 2 + t.toNat < 2 ^ 9 by rw [Nat.shiftLeft_eq]; omega)]
  simp only [Nat.shiftLeft_eq]
  omega

/-- UNPACK12's fields as numbers. -/
theorem unpack12_toNat (w : Word12) :
    (unpack12 w).pick.toNat = w.toNat / 512 ∧ (unpack12 w).destination.toNat = w.toNat / 4 % 128
      ∧ (unpack12 w).status.toNat = w.toNat % 4 := by
  have hw := w.isLt
  simp only [unpack12, takeField_toNat]
  omega

/-- A batch whose length is a multiple of 3 is its first chunk's record and the rest's. -/
theorem decodeChunks_cons (lower : Bool) (c : Chars) (cs : List Chars) :
    decodeChunks lower (c :: cs) =
      (decode12 lower c).bind fun r => (decodeChunks lower cs).map fun rs => r :: rs := by
  cases h : decode12 lower c with
  | error e => simp [decodeChunks, h, Except.bind]
  | ok r => cases h' : decodeChunks lower cs <;> simp [decodeChunks, h, h', Except.bind, Except.map]

end Sys2Proof.Machine
end

