-- ==== Sys2Proof/Laws/Codec16.lean ====
section
/-! SUPPORT. What the units of the 16-bit schema do (R65 to R78). -/

namespace Sys2Proof.Machine

/-- Counting an exclusive or, modulo 2. -/
theorem countP_xor_mod_two {α : Type} (p q : α → Bool) (l : List α) :
    l.countP (fun a => p a ^^ q a) % 2 = (l.countP p + l.countP q) % 2 := by
  induction l with
  | nil => rfl
  | cons a l ih =>
    simp only [List.countP_cons]
    cases p a <;> cases q a <;> simp <;> omega

/-- The parity of a population count is linear (R68 (d)). -/
theorem popcount_xor_mod_two {n : Nat} (a b : BitVec n) :
    popcount (a ^^^ b) % 2 = (popcount a + popcount b) % 2 := by
  have h : (a ^^^ b).getLsbD = fun k => a.getLsbD k ^^ b.getLsbD k := funext fun k => BitVec.getLsbD_xor
  rw [popcount, h, countP_xor_mod_two, popcount, popcount]

/-- The bits of a word are bit 0 and the payload. -/
theorem popcount_payload (w : Word16) : popcount w = (takeField w 0 1).toNat + popcount (takeField w 1 15) := by
  have h0 : (takeField w 0 1).toNat = if w.getLsbD 0 then 1 else 0 := by
    rw [takeField_toNat]
    cases h : w.getLsbD 0 <;> simp [BitVec.getLsbD, Nat.testBit_zero] at h ⊢ <;> omega
  have h1 : ∀ k ∈ List.range 15, w.getLsbD (k + 1) = (takeField w 1 15).getLsbD k := by
    intro k hk
    rw [takeField_getLsbD, decide_eq_true (List.mem_range.1 hk), Bool.true_and, Nat.add_comm]
  rw [h0, popcount, popcount, List.range_succ_eq_map, List.countP_cons, List.countP_map, Nat.add_comm]
  congr 1
  exact List.countP_congr fun k hk => by simp only [Function.comp, Nat.succ_eq_add_one, h1 k hk]

theorem par15_toNat (v : Payload) : (par15 v).toNat = popcount v % 2 := by
  simp [par15]

/-- A word passes the check exactly when its population count is even (R68 (a)). -/
theorem parityOk_iff (w : Word16) : parityOk w = true ↔ popcount w % 2 = 0 := by
  have hq : (takeField w 0 1).toNat < 2 := (takeField w 0 1).isLt
  rw [parityOk, beq_iff_eq, ← BitVec.toNat_inj, par15_toNat, popcount_payload]
  omega

/-- PICKNORM's code as a number (R65). -/
theorem pickCode_toNat (a b p : Int) :
    ((pickCode a b p).toNat : Int) = if p = 0 then 0 else if p = a then 1 else if p = b then 2 else p % 4 := by
  unfold pickCode pickFallback
  simp only [BitVec.toNat_ofInt]
  split
  · rfl
  · split
    · rfl
    · split
      · rfl
      · simp; omega

/-- PACK16 on operands outside a bound. -/
theorem pack16_reject {a b p d : Int} (h : accepts16 a b p d = false) : pack16 a b p d = .error .rangeError := by
  simp [pack16, h]

/-- The four fields of a body as a number; bit 0 is clear. -/
theorem body16_toNat {a b d : Int} (c : BitVec 2) (ha : 0 ≤ a ∧ a ≤ 7) (hb : 0 ≤ b ∧ b ≤ 7) (hd : 0 ≤ d ∧ d ≤ 127) :
    ((body16 a b c d).toNat : Int) = a * 8192 + b * 1024 + c.toNat * 256 + d * 2 := by
  have hc : c.toNat < 4 := c.isLt
  rw [body16, BitVec.toNat_or, BitVec.toNat_or, BitVec.toNat_or, placeField_toNat ha.1 (by omega) (by decide),
    placeField_toNat hb.1 (by omega) (by decide), placeField_toNat (by omega) (by omega) (by decide),
    placeField_toNat hd.1 (by omega) (by decide), Nat.or_assoc, Nat.or_assoc,
    ← Nat.shiftLeft_add_eq_or_of_lt (show d.toNat <<< 1 < 2 ^ 8 by rw [Nat.shiftLeft_eq]; omega),
    ← Nat.shiftLeft_add_eq_or_of_lt
      (show (c.toNat : Int).toNat <<< 8 + d.toNat <<< 1 < 2 ^ 10 by simp only [Nat.shiftLeft_eq]; omega),
    ← Nat.shiftLeft_add_eq_or_of_lt
      (show b.toNat <<< 10 + ((c.toNat : Int).toNat <<< 8 + d.toNat <<< 1) < 2 ^ 13 by
        simp only [Nat.shiftLeft_eq]; omega)]
  simp only [Nat.shiftLeft_eq]
  omega

/-- ORing a bit into a clear bit 0 adds it. -/
theorem or_parity_toNat (v : Word16) (q : BitVec 1) (h : v.toNat % 2 = 0) :
    (v ||| q.setWidth 16).toNat = v.toNat + q.toNat := by
  have hq : q.toNat < 2 ^ 1 := q.isLt
  have hv : v.toNat = (v.toNat / 2) <<< 1 := by rw [Nat.shiftLeft_eq]; omega
  rw [BitVec.toNat_or, BitVec.toNat_setWidth, Nat.mod_eq_of_lt (by omega), hv,
    ← Nat.shiftLeft_add_eq_or_of_lt hq]

/-- PACK16 on accepted operands: one word, its fields side by side, with an even number of ones. -/
theorem pack16_accept {a b p d : Int} (h : accepts16 a b p d = true) :
    ∃ (w : Word16) (q : BitVec 1), pack16 a b p d = .ok w ∧ parityOk w = true ∧
      (w.toNat : Int) = a * 8192 + b * 1024 + (pickCode a b p).toNat * 256 + d * 2 + q.toNat := by
  obtain ⟨ha, hb, hp, hd⟩ := accepts16_iff.1 h
  have hbody := body16_toNat (pickCode a b p) (show 0 ≤ a ∧ a ≤ 7 by omega) (show 0 ≤ b ∧ b ≤ 7 by omega) hd
  generalize hB : body16 a b (pickCode a b p) d = B at hbody
  have hq : (par15 (takeField B 1 15)).toNat < 2 := (par15 (takeField B 1 15)).isLt
  have hsum := or_parity_toNat B (par15 (takeField B 1 15)) (by omega)
  refine ⟨_, par15 (takeField B 1 15), by simp only [pack16, h, if_true, hB]; rfl, ?_, ?_⟩
  · have hpay : takeField (B ||| (par15 (takeField B 1 15)).setWidth 16) 1 15 = takeField B 1 15 := by
      apply BitVec.eq_of_toNat_eq
      rw [takeField_toNat, takeField_toNat, hsum]
      omega
    have hlow : takeField (B ||| (par15 (takeField B 1 15)).setWidth 16) 0 1 = par15 (takeField B 1 15) := by
      apply BitVec.eq_of_toNat_eq
      rw [takeField_toNat, hsum]
      omega
    rw [parityOk, hpay, hlow, beq_self_eq_true]
  · rw [hsum]
    omega

/-- UNPACK16's fields as numbers, for a word that passes the check (R32, R73). -/
theorem unpack16_pass {w : Word16} (h : parityOk w = true) :
    ∃ (r : Record16) (c : BitVec 2), unpack16 w = .ok r ∧ r.roll1.toNat = w.toNat / 8192 ∧
      r.roll2.toNat = w.toNat / 1024 % 8 ∧ c.toNat = w.toNat / 256 % 4 ∧ r.destination.toNat = w.toNat / 2 % 128 ∧
      r.pick = pickdenorm c r.roll1 r.roll2 := by
  have hw := w.isLt
  refine ⟨_, takeField (takeField w 1 15) 7 2, by simp only [unpack16, h, if_true]; rfl, ?_, ?_, ?_, ?_, rfl⟩ <;>
    simp only [takeField_toNat] <;> omega

theorem unpack16_fail {w : Word16} (h : parityOk w = false) : unpack16 w = .error .integrityError := by
  simp [unpack16, h]

end Sys2Proof.Machine
end

