-- ==== Sys2Proof/Laws/Decode.lean ====
section
/-! SUPPORT. Each port is read back as it was written. -/

namespace Sys2Proof

theorem takeNarrow_put {n : Nat} (h : n ≤ 8) (v : BitVec n) (rest : List Byte) :
    takeNarrow n (putNarrow v ++ rest) = .ok (v, rest) := by
  have hv : v.toNat < 2 ^ n := v.isLt
  have hn : 2 ^ n ≤ 256 := Nat.pow_le_pow_right (n := 2) (by decide) h
  have hm : v.toNat % 256 = v.toNat := Nat.mod_eq_of_lt (by omega)
  simp [takeNarrow, putNarrow, hm, hv]

theorem takeWide_put {n : Nat} (h : n ≤ 16) (v : BitVec n) (rest : List Byte) :
    takeWide n (putWide v ++ rest) = .ok (v, rest) := by
  have hv : v.toNat < 2 ^ n := v.isLt
  have hn : 2 ^ n ≤ 65536 := Nat.pow_le_pow_right (n := 2) (by decide) h
  have hd : v.toNat / 256 % 256 = v.toNat / 256 := Nat.mod_eq_of_lt (by omega)
  have hs : v.toNat % 256 + 256 * (v.toNat / 256) = v.toNat := by omega
  simp [takeWide, putWide, hd, hs, hv]

theorem signed7_small (x : Int) (h : -64 ≤ x ∧ x < 64) : signed7 (x % 128).toNat = x := by
  unfold signed7
  split <;> omega

theorem takeInt_last (x : Int) (h : -64 ≤ x ∧ x < 64) (rest : List Byte) :
    takeInt (BitVec.ofNat 8 (x % 128).toNat :: rest) = .ok (x, rest) := by
  have hm : (x % 128).toNat % 256 = (x % 128).toNat := by omega
  have hl : (x % 128).toNat < 128 := by omega
  simp [takeInt, hm, hl, signed7_small x h]

theorem takeInt_putFuel (fuel : Nat) (x : Int) (h : x.natAbs ≤ fuel) (rest : List Byte) :
    takeInt (putIntFuel fuel x ++ rest) = .ok (x, rest) := by
  induction fuel generalizing x with
  | zero => exact takeInt_last x (by omega) rest
  | succ fuel ih =>
    rw [putIntFuel]
    split
    · next hx => exact takeInt_last x hx rest
    · next hx =>
      have hm : (128 + (x % 128).toNat) % 256 = 128 + (x % 128).toNat := by omega
      have hr : x / 128 * 128 + x % 128 = x := by omega
      have hnn : max (x % 128) 0 = x % 128 := by omega
      simp [takeInt, hm, ih (x / 128) (by omega), hr, hnn]

/-- An integer port is read back as it was written, at every value. -/
theorem takeInt_put (x : Int) (rest : List Byte) : takeInt (putInt x ++ rest) = .ok (x, rest) :=
  takeInt_putFuel _ x (Nat.le_refl _) rest

theorem takeLength_last (n : Nat) (h : n < 128) (rest : List Byte) :
    takeLength (BitVec.ofNat 8 n :: rest) = .ok (n, rest) := by
  have hm : n % 256 = n := by omega
  simp [takeLength, hm, h]

theorem takeLength_putFuel (fuel n : Nat) (h : n ≤ fuel) (rest : List Byte) :
    takeLength (putLengthFuel fuel n ++ rest) = .ok (n, rest) := by
  induction fuel generalizing n with
  | zero =>
    obtain rfl : n = 0 := by omega
    exact takeLength_last 0 (by decide) rest
  | succ fuel ih =>
    rw [putLengthFuel]
    split
    · next hn => exact takeLength_last n hn rest
    · next hn =>
      have hm : (128 + n % 128) % 256 = 128 + n % 128 := by omega
      have hr : n / 128 * 128 + n % 128 = n := by omega
      simp [takeLength, hm, ih (n / 128) (by omega), hr]

theorem takeExactly_append (s : Chars) (rest : List Byte) : takeExactly s.length (s ++ rest) = .ok (s, rest) := by
  induction s with
  | nil => rfl
  | cons b s ih => simp [takeExactly, ih]

/-- A character-sequence port is read back as it was written, at every length. -/
theorem takeChars_put (s : Chars) (rest : List Byte) : takeChars (putChars s ++ rest) = .ok (s, rest) := by
  simp [takeChars, putChars, putLength, takeLength_putFuel _ s.length (Nat.le_refl _), takeExactly_append]

@[simp] theorem Op.ofNumber_number (op : Op) : Op.ofNumber op.number = some op := by
  cases op <;> rfl

theorem Op.number_lt (op : Op) : op.number < 16 := by
  cases op <;> decide

/-- Reading an application is reading its operands for its unit. -/
theorem decode_encode_append (i : Instr) (rest : List Byte) :
    decode (encode i ++ rest) = takeOperands i.op (putOperands i ++ rest) := by
  have hm : i.op.number % 256 = i.op.number := Nat.mod_eq_of_lt (Nat.lt_trans i.op.number_lt (by decide))
  simp [decode, encode, hm]

end Sys2Proof
end

