-- ==== Sys2Proof/Laws/Exec.lean ====
section
/-! SUPPORT. What exec and step can do, said once. -/

namespace Sys2Proof.Machine

/-- Every application answers a next state, which differs from the state before in its outputs only. -/
theorem exec_eq (i : Instr) (s : State) : exec i s = .next (s.present i.op (resultOf i)) := by
  cases i <;> first | rfl | exact deliver_eq ..

/-- exec is the block of unit state with its result on the outputs of the unit driven (R10). -/
theorem exec_eq_block (i : Instr) (s : State) :
    exec i s = .next
      { block := (blockStep i s.block).2, inputs := s.inputs, out := some ⟨i.op, (blockStep i s.block).1⟩ } :=
  exec_eq i s

/-- What an application leaves on the outputs is its result, and nothing else. -/
theorem exec_eq_next_iff {i : Instr} {s : State} {op : Op} {r : Result} (h : i.op = op) :
    exec i s = .next { s with out := some ⟨op, r⟩ } ↔ resultOf i = r := by
  subst h
  rw [exec_eq]
  refine ⟨fun h => ?_, fun h => h ▸ rfl⟩
  simpa using congrArg State.out (Host.Outcome.next.inj h)

/-- A step that answers a next state has run the first application presented. -/
theorem step_next {s t : State} (h : step s = .next t) :
    ∃ i rest, decode s.inputs = .ok (i, rest) ∧ t = { block := (), inputs := rest, out := some ⟨i.op, resultOf i⟩ } := by
  unfold step at h
  split at h
  · next i rest hd =>
    rw [exec_eq] at h
    exact ⟨i, rest, hd, (Host.Outcome.next.inj h).symm⟩
  · cases h

end Sys2Proof.Machine
end

