-- ==== Sys2Proof/Laws/PerInstr.lean ====
section
/-! SUPPORT. Family ReadBack: a unit reads back exactly the operands that were presented to it. -/

namespace Sys2Proof.Laws.ReadBack

/-- The operands of `i`, written out and followed by anything, are read as `i` and nothing more. -/
def Statement (i : Instr) : Prop :=
  ∀ rest : List Byte, takeOperands i.op (putOperands i ++ rest) = .ok (i, rest)

theorem hexr3 (w : Word12) : Statement (.hexr3 w) := fun rest => by
  simp [Instr.op, takeOperands, putOperands, takeWide_put, bind, Except.bind]

theorem hexr4 (w : Word16) : Statement (.hexr4 w) := fun rest => by
  simp [Instr.op, takeOperands, putOperands, takeWide_put, bind, Except.bind]

theorem hexp3 (chars : Chars) : Statement (.hexp3 chars) := fun rest => by
  simp only [Instr.op, takeOperands, putOperands, takeChars_put]; rfl

theorem hexp4 (chars : Chars) : Statement (.hexp4 chars) := fun rest => by
  simp only [Instr.op, takeOperands, putOperands, takeChars_put]; rfl

theorem pack12 (pick destination status : Int) : Statement (.pack12 pick destination status) := fun rest => by
  simp [Instr.op, takeOperands, putOperands, takeInt_put, bind, Except.bind]

theorem unpack12 (w : Word12) : Statement (.unpack12 w) := fun rest => by
  simp [Instr.op, takeOperands, putOperands, takeWide_put, bind, Except.bind]

theorem encode12 (pick destination status : Int) : Statement (.encode12 pick destination status) := fun rest => by
  simp [Instr.op, takeOperands, putOperands, takeInt_put, bind, Except.bind]

theorem decode12 (chars : Chars) : Statement (.decode12 chars) := fun rest => by
  simp only [Instr.op, takeOperands, putOperands, takeChars_put]; rfl

theorem decodebatch12 (chars : Chars) : Statement (.decodebatch12 chars) := fun rest => by
  simp only [Instr.op, takeOperands, putOperands, takeChars_put]; rfl

theorem picknorm (roll1 roll2 pick : Int) : Statement (.picknorm roll1 roll2 pick) := fun rest => by
  simp [Instr.op, takeOperands, putOperands, takeInt_put, bind, Except.bind]

theorem par15 (payload : Payload) : Statement (.par15 payload) := fun rest => by
  simp [Instr.op, takeOperands, putOperands, takeWide_put, bind, Except.bind]

theorem pack16 (roll1 roll2 pick destination : Int) : Statement (.pack16 roll1 roll2 pick destination) := fun rest => by
  simp [Instr.op, takeOperands, putOperands, takeInt_put, bind, Except.bind]

theorem pickdenorm (code : BitVec 2) (roll1 roll2 : BitVec 3) : Statement (.pickdenorm code roll1 roll2) := fun rest => by
  simp [Instr.op, takeOperands, putOperands, takeNarrow_put, bind, Except.bind]

theorem unpack16 (w : Word16) : Statement (.unpack16 w) := fun rest => by
  simp [Instr.op, takeOperands, putOperands, takeWide_put, bind, Except.bind]

theorem encode16 (roll1 roll2 pick destination : Int) : Statement (.encode16 roll1 roll2 pick destination) :=
  fun rest => by simp [Instr.op, takeOperands, putOperands, takeInt_put, bind, Except.bind]

theorem decode16 (chars : Chars) : Statement (.decode16 chars) := fun rest => by
  simp only [Instr.op, takeOperands, putOperands, takeChars_put]; rfl

end Sys2Proof.Laws.ReadBack
end

