-- ==== Sys2Proof/Tests/Slice0.lean ====
section
/-! SUPPORT. Tests. Expected results are the worked examples and vectors of the spec (40_token_hex.md, 41_codec12.md,
42_codec16_parity.md, 95_test_vectors.md); presented characters are written out by hand from the layout of
Decode.lean (log entry 1) and the spec's formats. The witness_ theorems meet the hypotheses of the obligations. -/

namespace Sys2Proof.Tests

open Sys2Proof Sys2Proof.Machine

/-- Text as characters. -/
def txt (cs : List Char) : Chars := cs.map fun c => BitVec.ofNat 8 c.toNat

/-- A small state with something presented and something on the outputs. -/
def busy : State := { block := (), inputs := [10#8, 1#8, 0#8], out := some ⟨.unpack16, .error .integrityError⟩ }

/-- The result one operation leaves, run in that state. -/
def ran (i : Instr) : Option Outputs :=
  match exec i busy with
  | .next t => t.out
  | .fault _ => none
  | .refused _ => none

/-! ## WellFormed: R65's condition, one ill-formed application for each bound -/

theorem test_wellFormed_accepts : Instr.wellFormed (.picknorm 1 6 0) = true := by decide
theorem test_wellFormed_accepts_unchecked : Instr.wellFormed (.pack16 0 9 (-3) 500) = true := by decide
theorem test_wellFormed_roll1_low : Instr.wellFormed (.picknorm 0 1 1) = false := by decide
theorem test_wellFormed_roll1_high : Instr.wellFormed (.picknorm 7 1 1) = false := by decide
theorem test_wellFormed_roll2_low : Instr.wellFormed (.picknorm 1 0 1) = false := by decide
theorem test_wellFormed_roll2_high : Instr.wellFormed (.picknorm 1 7 1) = false := by decide
theorem test_wellFormed_pick_low : Instr.wellFormed (.picknorm 1 1 (-1)) = false := by decide
theorem test_wellFormed_pick_high : Instr.wellFormed (.picknorm 1 1 7) = false := by decide

/-! ## Decoding: one written-out application for each constructor -/

/-- W12 word 110 1100100 11 = 0xD93, low eight bits 1001 0011 first. -/
theorem test_decode_hexr3 : decode [0#8, 0b10010011#8, 0b00001101#8] = .ok (.hexr3 0b110110010011#12, []) := by decide
/-- W16 word 011 101 00 0101010 1 = 0x7455. -/
theorem test_decode_hexr4 : decode [1#8, 0b01010101#8, 0b01110100#8] = .ok (.hexr4 0b0111010001010101#16, []) := by decide
theorem test_decode_hexp3 : decode [2#8, 3#8, 0x44#8, 0x39#8, 0x33#8] = .ok (.hexp3 (txt ['D', '9', '3']), []) := by decide
theorem test_decode_hexp4 :
    decode [3#8, 4#8, 0x37#8, 0x34#8, 0x35#8, 0x35#8, 9#8] = .ok (.hexp4 (txt ['7', '4', '5', '5']), [9#8]) := by decide
/-- -1 is seven bits of 1; 128 is 1 0000000, two groups of seven. -/
theorem test_decode_pack12 :
    decode [4#8, 0b01111111#8, 0b10000000#8, 0b00000001#8, 3#8] = .ok (.pack12 (-1) 128 3, []) := by decide
/-- W12 word 011 0111001 10 = 0x6E6. -/
theorem test_decode_unpack12 : decode [5#8, 0b11100110#8, 0b00000110#8] = .ok (.unpack12 0b011011100110#12, []) := by decide
/-- 100 is 0 1100100: its seven low bits have bit 6 set, so a second group carries the sign. -/
theorem test_decode_encode12 :
    decode [6#8, 6#8, 0b11100100#8, 0#8, 3#8] = .ok (.encode12 6 100 3, []) := by decide
theorem test_decode_decode12 : decode [7#8, 2#8, 0x5A#8, 0x5A#8] = .ok (.decode12 (txt ['Z', 'Z']), []) := by decide
theorem test_decode_decodebatch12 : decode [8#8, 0#8] = .ok (.decodebatch12 [], []) := by decide
theorem test_decode_picknorm : decode [9#8, 3#8, 5#8, 4#8] = .ok (.picknorm 3 5 4, []) := by decide
/-- Payload 011 1010 0010 1010 = 0x3A2A. -/
theorem test_decode_par15 : decode [10#8, 0b00101010#8, 0b00111010#8] = .ok (.par15 0b011101000101010#15, []) := by decide
theorem test_decode_pack16 : decode [11#8, 4#8, 2#8, 2#8, 37#8] = .ok (.pack16 4 2 2 37, []) := by decide
theorem test_decode_pickdenorm : decode [12#8, 1#8, 0#8, 7#8] = .ok (.pickdenorm 1#2 0#3 7#3, []) := by decide
theorem test_decode_unpack16 : decode [13#8, 0b01010101#8, 0b01110100#8] = .ok (.unpack16 0x7455#16, []) := by decide
theorem test_decode_encode16 : decode [14#8, 1#8, 1#8, 0#8, 0xFF#8, 0#8] = .ok (.encode16 1 1 0 127, []) := by decide
theorem test_decode_decode16 : decode [15#8, 1#8, 0x31#8, 2#8] = .ok (.decode16 (txt ['1']), [2#8]) := by decide

/-! What cannot be presented is rejected by name (R15, R39, R101). -/

theorem test_decode_nothing : decode [] = .error .nothingPresented := by decide
theorem test_decode_unknownUnit : decode [16#8, 0#8] = .error (.unknownUnit 16#8) := by decide
theorem test_decode_operandMissing : decode [4#8, 3#8, 57#8] = .error .operandMissing := by decide
theorem test_decode_word12_tooWide : decode [5#8, 0#8, 0x10#8] = .error .operandTooWide := by decide
theorem test_decode_roll_tooWide : decode [12#8, 1#8, 8#8, 0#8] = .error .operandTooWide := by decide
theorem test_encode_pack12 : encode (.pack12 (-1) 128 3) = [4#8, 0x7F#8, 0x80#8, 1#8, 3#8] := by decide
theorem test_tableWord : decodeTableWord 16 0x0308 = some (.decodebatch12 [0#8, 0#8, 0#8]) := by decide

/-! ## Operations, against the spec's vectors -/

theorem test_hexr3 : ran (.hexr3 3475#12) = some ⟨.hexr3, .ok (.chars (txt ['D', '9', '3']))⟩ := by decide
theorem test_hexr3_zeros : ran (.hexr3 3#12) = some ⟨.hexr3, .ok (.chars (txt ['0', '0', '3']))⟩ := by decide
theorem test_hexr4 : ran (.hexr4 0xDBFF#16) = some ⟨.hexr4, .ok (.chars (txt ['D', 'B', 'F', 'F']))⟩ := by decide
theorem test_hexr4_zeros : ran (.hexr4 0x00FE#16) = some ⟨.hexr4, .ok (.chars (txt ['0', '0', 'F', 'E']))⟩ := by decide
theorem test_hexp3 : ran (.hexp3 (txt ['D', '9', '3'])) = some ⟨.hexp3, .ok (.word12 3475#12)⟩ := by decide
theorem test_hexp3_prefix : ran (.hexp3 (txt ['0', 'x', '1'])) = some ⟨.hexp3, .error .formatError⟩ := by decide
theorem test_hexp4 : ran (.hexp4 (txt ['3', '9', 'F', 'F'])) = some ⟨.hexp4, .ok (.word16 14847#16)⟩ := by decide
theorem test_hexp4_length : ran (.hexp4 (txt ['D', '9', '3'])) = some ⟨.hexp4, .error .formatError⟩ := by decide
/-- `"aBc"`, for both values of LOWER_HEX_OK. -/
theorem test_hexp3_lowercase :
    hexp3 true (txt ['a', 'B', 'c']) = .ok 2748#12 ∧ hexp3 false (txt ['a', 'B', 'c']) = .error .formatError := by decide
theorem test_pack12 : ran (.pack12 2 99 3) = some ⟨.pack12, .ok (.word12 1423#12)⟩ := by decide
theorem test_pack12_not_truncated : ran (.pack12 8 0 0) = some ⟨.pack12, .error .rangeError⟩ := by decide
theorem test_unpack12 : ran (.unpack12 0xD9B#12) = some ⟨.unpack12, .ok (.record12 ⟨6#3, 102#7, 3#2⟩)⟩ := by decide
theorem test_encode12 : ran (.encode12 6 100 3) = some ⟨.encode12, .ok (.chars (txt ['D', '9', '3']))⟩ := by decide
theorem test_encode12_range : ran (.encode12 0 101 0) = some ⟨.encode12, .error .rangeError⟩ := by decide
theorem test_decode12 : ran (.decode12 (txt ['1', 'F', 'C'])) = some ⟨.decode12, .ok (.record12 ⟨0#3, 127#7, 0#2⟩)⟩ := by decide
theorem test_decode12_format : ran (.decode12 (txt ['Z', 'Z'])) = some ⟨.decode12, .error .formatError⟩ := by decide
theorem test_decodebatch12 : ran (.decodebatch12 (txt ['0', '0', '0', '6', 'E', '6', 'D', '9', '3'])) =
    some ⟨.decodebatch12, .ok (.records12 [⟨0, 0, 0⟩, ⟨3, 57, 2⟩, ⟨6, 100, 3⟩])⟩ := by decide
theorem test_decodebatch12_second_chunk : ran (.decodebatch12 (txt ['2', '0', '5', '6', 'E', 'G'])) =
    some ⟨.decodebatch12, .error .formatError⟩ := by decide
theorem test_picknorm_equal_rolls : ran (.picknorm 4 4 4) = some ⟨.picknorm, .ok (.code 1#2)⟩ := by decide
theorem test_picknorm_fallback : ran (.picknorm 3 5 6) = some ⟨.picknorm, .ok (.code 2#2)⟩ := by decide
theorem test_par15 : ran (.par15 0x3A2A#15) = some ⟨.par15, .ok (.parity 1#1)⟩ := by decide
theorem test_par15_top_bit : ran (.par15 0x4000#15) = some ⟨.par15, .ok (.parity 1#1)⟩ := by decide
theorem test_pack16 : ran (.pack16 5 3 3 77) = some ⟨.pack16, .ok (.word16 0xAE9B#16)⟩ := by decide
theorem test_pack16_range : ran (.pack16 1 1 0 128) = some ⟨.pack16, .error .rangeError⟩ := by decide
theorem test_pickdenorm_roll2 : ran (.pickdenorm 2#2 0#3 7#3) = some ⟨.pickdenorm, .ok (.pick 7#3)⟩ := by decide
theorem test_pickdenorm_three : ran (.pickdenorm 3#2 1#3 2#3) = some ⟨.pickdenorm, .ok (.pick 3#3)⟩ := by decide
theorem test_unpack16 : ran (.unpack16 0x6E54#16) = some ⟨.unpack16, .ok (.record16 ⟨3#3, 3#3, 3#3, 42#7⟩)⟩ := by decide
theorem test_unpack16_integrity : ran (.unpack16 0x2401#16) = some ⟨.unpack16, .error .integrityError⟩ := by decide
theorem test_encode16 : ran (.encode16 2 6 6 100) = some ⟨.encode16, .ok (.chars (txt ['5', 'A', 'C', '9']))⟩ := by decide
theorem test_encode16_range : ran (.encode16 0 7 7 128) = some ⟨.encode16, .error .rangeError⟩ := by decide
theorem test_decode16 : ran (.decode16 (txt ['8', 'A', '4', 'A'])) =
    some ⟨.decode16, .ok (.record16 ⟨4#3, 2#3, 2#3, 37#7⟩)⟩ := by decide
theorem test_decode16_format_first : ran (.decode16 (txt ['2', '4', 'F', 'G'])) = some ⟨.decode16, .error .formatError⟩ := by decide

/-- An error on the outputs from before leaves nothing behind (R92; P5 step 7), and the step takes one application. -/
theorem test_step_after_error :
    step { busy with inputs := [12#8, 1#8, 3#8, 5#8, 0#8] } =
      .next { block := (), inputs := [0#8], out := some ⟨.pickdenorm, .ok (.pick 3#3)⟩ } := by rfl
theorem test_err_output : busy.err = some .integrity ∧ State.reset.err = none := by decide

/-! ## Witnesses: states and operands that meet the obligations' hypotheses -/

theorem witness_StepRunsDecodedApplication : decode busy.inputs = .ok (.par15 1#15, []) := by decide
theorem witness_StepRefusesWithoutApplication :
    decode ({ busy with inputs := [255#8] } : State).inputs = .error (.unknownUnit 255#8) ∧ State.reset.inputs = [] := by decide
theorem witness_DecodeReadsPrefixOnly : decode [2#8, 1#8, 0x30#8, 7#8] = .ok (.hexp3 [0x30#8], [7#8]) := by decide
theorem witness_PresentedWordRunsNext : decodeTableWord 16 0x0105 = some (.unpack12 1#12) := by decide
theorem witness_PresentedApplicationsRunInTurn :
    exec (.hexr3 0#12) { State.reset with inputs := [1#8] } =
      .next { block := (), inputs := [1#8], out := some ⟨.hexr3, .ok (.chars (txt ['0', '0', '0']))⟩ } := by rfl
theorem witness_ErrIsNotSticky :
    exec (.unpack12 0#12) busy = .next { busy with out := some ⟨.unpack12, .ok (.record12 ⟨0, 0, 0⟩)⟩ } ∧
    exec (.unpack12 0#12) State.reset = .next { State.reset with out := some ⟨.unpack12, .ok (.record12 ⟨0, 0, 0⟩)⟩ } :=
  ⟨rfl, rfl⟩
theorem witness_ErrorTableOfOperations :
    exec (.pack12 7 0 0) busy = .next { busy with out := some ⟨.pack12, .error .rangeError⟩ } ∧
    exec (.hexp3 []) busy = .next { busy with out := some ⟨.hexp3, .error .formatError⟩ } ∧
    exec (.unpack16 1#16) busy = .next { busy with out := some ⟨.unpack16, .error .integrityError⟩ } := ⟨rfl, rfl, rfl⟩
theorem witness_EveryStepKeepsOutputsLegal :
    busy.Legal ∧ step busy = .next { block := (), inputs := [], out := some ⟨.par15, .ok (.parity 1#1)⟩ } :=
  ⟨fun o h => by cases h; rfl, rfl⟩
theorem witness_NineBitPorts : 9 ≤ 9 ∧ (-1 : Int) ≤ -1 ∧ (-1 : Int) ≤ 128 ∧ (-1 : Int) ≤ 128 ∧ (128 : Int) ≤ 128 := by decide
theorem witness_digits : hexval Config.lowerHexOk 0x30#8 = some 0#4 ∧ hexval Config.lowerHexOk 0x39#8 = some 9#4 ∧
    hexval Config.lowerHexOk 0x41#8 = some 10#4 ∧ hexval Config.lowerHexOk 0x46#8 = some 15#4 := ⟨rfl, rfl, rfl, rfl⟩
theorem witness_bad_characters : hexval Config.lowerHexOk 0x2F#8 = none ∧ hexval Config.lowerHexOk 0x3A#8 = none ∧
    hexval Config.lowerHexOk 0x40#8 = none ∧ hexval Config.lowerHexOk 0x47#8 = none ∧
    hexval Config.lowerHexOk 0x67#8 = none ∧ hexval Config.lowerHexOk 0xFF#8 = none := ⟨rfl, rfl, rfl, rfl, rfl, rfl⟩
/-- Rejected lengths of Hexp3, Decode12 and the batch, of Hexp4 and Decode16, and of OtherSchemaTokens. -/
theorem witness_bad_lengths : ([] : Chars).length ≠ 3 ∧ (txt ['1', '2', '3', '4']).length ≠ 3 ∧
    (txt ['1', '2', '3', '4']).length = 4 ∧ (txt ['1', '2', '3']).length = 3 ∧ (txt ['1', '2', '3']).length ≠ 4 ∧
    (txt ['1', '2', '3', '4']).length % 3 ≠ 0 := by decide
theorem witness_RenderingUppercasesParsedText :
    exec (.hexp3 (txt ['F', 'F', 'F'])) busy = .next { busy with out := some ⟨.hexp3, .ok (.word12 4095#12)⟩ } ∧
    exec (.hexp4 (txt ['F', 'F', 'F', 'F'])) busy = .next { busy with out := some ⟨.hexp4, .ok (.word16 65535#16)⟩ } :=
  ⟨rfl, rfl⟩
/-- Bounds of Pack12, Encode12 and Decode12UndoesEncode12, and the nearest rejected values. -/
theorem witness_bounds12 : ((0 : Int) ≤ 6 ∧ (6 : Int) ≤ 6) ∧ ((0 : Int) ≤ 100 ∧ (100 : Int) ≤ 100) ∧
    ((0 : Int) ≤ 3 ∧ (3 : Int) ≤ 3) ∧ ¬ ((7 : Int) ≤ 6) ∧ ¬ ((101 : Int) ≤ 100) ∧ ¬ ((4 : Int) ≤ 3) ∧ ¬ ((0 : Int) ≤ -1) := by decide
theorem witness_Pack12AndUnpack12AreInverse :
    exec (.pack12 6 100 3) busy = .next { busy with out := some ⟨.pack12, .ok (.word12 0xD93#12)⟩ } ∧
    exec (.unpack12 0xD93#12) busy = .next { busy with out := some ⟨.unpack12, .ok (.record12 ⟨6, 100, 3⟩)⟩ } ∧
    exec (.unpack12 0xFFF#12) busy = .next { busy with out := some ⟨.unpack12, .ok (.record12 ⟨7, 127, 3⟩)⟩ } :=
  ⟨rfl, rfl, rfl⟩
/-- BatchDecodesChunksInOrder, first clause, at n = 0 and at n = 1. -/
theorem witness_BatchDecodesChunksInOrder : ([] : Chars).length = 3 * 0 ∧
    (txt ['2', '0', '5']).length = 3 * 1 ∧ ∀ c ∈ txt ['2', '0', '5'], hexval Config.lowerHexOk c ≠ none := by decide
theorem witness_BatchUndoesEncodedSequence :
    exec (.encode12 3 57 2) busy = .next { busy with out := some ⟨.encode12, .ok (.chars (txt ['6', 'E', '6']))⟩ } ∧
    [txt ['6', 'E', '6']].length = [((3 : Int), (57 : Int), (2 : Int))].length := ⟨rfl, rfl⟩
/-- OtherSchemaTokens, third clause: P3's three tokens. -/
theorem witness_OtherSchemaTokens :
    exec (.encode16 3 5 0 42) busy = .next { busy with out := some ⟨.encode16, .ok (.chars (txt ['7', '4', '5', '5']))⟩ } ∧
    exec (.encode16 1 1 0 0) busy = .next { busy with out := some ⟨.encode16, .ok (.chars (txt ['2', '4', '0', '0']))⟩ } ∧
    exec (.encode16 6 6 3 127) busy =
      .next { busy with out := some ⟨.encode16, .ok (.chars (txt ['D', 'B', 'F', 'F']))⟩ } ∧ 3 % 3 = 0 := ⟨rfl, rfl, rfl, rfl⟩
/-- Bounds of PICKNORM, PACK16 and ENCODE16, and the nearest rejected values. -/
theorem witness_bounds16 : ((1 : Int) ≤ 1 ∧ (1 : Int) ≤ 6) ∧ ((1 : Int) ≤ 6 ∧ (6 : Int) ≤ 6) ∧ ((0 : Int) ≤ 0 ∧ (0 : Int) ≤ 6) ∧
    ((0 : Int) ≤ 127 ∧ (127 : Int) ≤ 127) ∧ ¬ ((1 : Int) ≤ 0) ∧ ¬ ((7 : Int) ≤ 6) ∧ ¬ ((0 : Int) ≤ -1) ∧ ¬ ((128 : Int) ≤ 127) := by decide
theorem witness_PicknormThenPickdenormTable : (1 ≤ (1#3).toNat ∧ (1#3).toNat ≤ 6) ∧ (1 ≤ (6#3).toNat ∧ (6#3).toNat ≤ 6) ∧
    ((0 : Int) ≤ 4 ∧ (4 : Int) ≤ 6) := by decide
/-- ParityDetectsOddErrorsOnly, SingleBitErrorsAreDetected and Pack16OfUnpack16: a passing word, an even mask, an odd one. -/
theorem witness_passing_word :
    exec (.unpack16 0x8A4A#16) busy = .next { busy with out := some ⟨.unpack16, .ok (.record16 ⟨4, 2, 2, 37⟩)⟩ } ∧
    (List.range 16).countP (fun k => (0x0102#16).getLsbD k) % 2 = 0 ∧
    (List.range 16).countP (fun k => (0x8000#16).getLsbD k) % 2 = 1 := ⟨rfl, rfl, rfl⟩
theorem witness_par15_linear :
    exec (.par15 1#15) busy = .next { busy with out := some ⟨.par15, .ok (.parity 1#1)⟩ } ∧
    exec (.par15 3#15) busy = .next { busy with out := some ⟨.par15, .ok (.parity 0#1)⟩ } := ⟨rfl, rfl⟩
theorem witness_SingleBitErrorsAreDetected : 15 < 16 ∧
    exec (.hexr4 (0x8A4A#16 ^^^ (1#16 <<< 15))) busy =
      .next { busy with out := some ⟨.hexr4, .ok (.chars (txt ['0', 'A', '4', 'A']))⟩ } := ⟨by decide, rfl⟩
theorem witness_Pack16CollidesExactlyOnEqualCodes :
    exec (.pack16 3 5 5 42) busy = .next { busy with out := some ⟨.pack16, .ok (.word16 0x7654#16)⟩ } ∧
    exec (.pack16 3 5 2 42) busy = .next { busy with out := some ⟨.pack16, .ok (.word16 0x7654#16)⟩ } := ⟨rfl, rfl⟩
/-- Unpack16ChecksThenReturnsFields: a word that passes and one that fails. -/
theorem witness_Unpack16ChecksThenReturnsFields :
    (List.range 15).countP (fun k => (0xFFFF#16).getLsbD (k + 1)) % 2 = (0xFFFF#16).toNat % 2 ∧
    (List.range 15).countP (fun k => (0xFFFE#16).getLsbD (k + 1)) % 2 ≠ (0xFFFE#16).toNat % 2 := by decide
theorem witness_Unpack16OfPack16 :
    exec (.pack16 1 6 5 127) busy = .next { busy with out := some ⟨.pack16, .ok (.word16 0x39FF#16)⟩ } := rfl
/-- Pack16OfUnpack16: a roll of 0, and rolls in 1 to 6 with pick-code 2 and equal rolls. -/
theorem witness_Pack16OfUnpack16 :
    exec (.unpack16 0x0300#16) busy = .next { busy with out := some ⟨.unpack16, .ok (.record16 ⟨0, 0, 3, 0⟩)⟩ } ∧
    exec (.unpack16 0x6E54#16) busy = .next { busy with out := some ⟨.unpack16, .ok (.record16 ⟨3, 3, 3, 42⟩)⟩ } := ⟨rfl, rfl⟩

/-- StepForgetsEarlierOutputs: equal inputs beside different outputs, and an operation that fails before another. -/
theorem witness_StepForgetsEarlierOutputs :
    busy.inputs = ({ busy with out := none } : State).inputs ∧ busy ≠ { busy with out := none } ∧
    exec (.hexp3 []) State.reset = .next { State.reset with out := some ⟨.hexp3, .error .formatError⟩ } :=
  ⟨rfl, by decide, rfl⟩

/-- TokenTextDeterminesWord: a text with a lowercase letter and one without, and equal words of equal uppercase text. -/
theorem witness_TokenTextDeterminesWord :
    isLowerHex 0x61#8 = true ∧ isLowerHex 0x66#8 = true ∧ isLowerHex 0x60#8 = false ∧ isLowerHex 0x67#8 = false ∧
    (∀ c ∈ txt ['0', '9', 'F'] ++ txt ['0', '9', 'F'], isLowerHex c = false) ∧
    exec (.hexp3 (txt ['0', '9', 'F'])) busy = .next { busy with out := some ⟨.hexp3, .ok (.word12 0x09F#12)⟩ } ∧
    exec (.hexp4 (txt ['0', '9', 'A', 'F'])) busy = .next { busy with out := some ⟨.hexp4, .ok (.word16 0x09AF#16)⟩ } ∧
    exec (.hexr3 0x09F#12) busy = .next { busy with out := some ⟨.hexr3, .ok (.chars (txt ['0', '9', 'F']))⟩ } ∧
    exec (.hexr4 0x09AF#16) busy =
      .next { busy with out := some ⟨.hexr4, .ok (.chars (txt ['0', '9', 'A', 'F']))⟩ } :=
  ⟨by decide, by decide, by decide, by decide, by decide, rfl, rfl, rfl, rfl⟩

end Sys2Proof.Tests
end

section
/-! Operand ports: which integers a two's complement port of a given width carries (R4, R15). -/

namespace Sys2Proof.Machine

/-- The rule for `portValue`: truncating an integer of the port's two's complement range to the port loses nothing. -/
@[simp] theorem portValue_ofInt {inW : Nat} {x : Int} (hpos : 0 < inW)
    (hlo : -2 ^ (inW - 1) ≤ x) (hhi : x < 2 ^ (inW - 1)) : portValue (BitVec.ofInt inW x) = x :=
  BitVec.toInt_ofInt_eq_self hpos hlo hhi

/-- Settles O16: at `IN_W ≥ 9` the port's range reaches from at most -256 to at least 255, so the port that holds the
operand truncated to `IN_W` bits carries it. -/
theorem nineBitPortsPresentEveryBoundary : Obligations.NineBitPortsPresentEveryBoundary := by
  intro inW x hwidth hlo hhi
  have hrange : (2 : Int) ^ 8 ≤ 2 ^ (inW - 1) := pow_le_pow_right₀ (by decide) (by omega)
  exact ⟨BitVec.ofInt inW x, portValue_ofInt (by omega) (by omega) (by omega)⟩

end Sys2Proof.Machine
end

section
/-! The decoder reads from the front: each port takes a beginning of the characters presented, and what it reads depends
on that beginning alone (log entry 1). Reading several ports in turn keeps the property. -/

namespace Sys2Proof

/-- What `take` reads, it reads off a beginning of the characters, whatever follows that beginning. -/
def ReadsPrefix {α : Type} (take : List Byte → Except DecodeError (α × List Byte)) : Prop :=
  ∀ (bytes rest : List Byte) (v : α), take bytes = .ok (v, rest) →
    ∃ used : List Byte, bytes = used ++ rest ∧ ∀ more : List Byte, take (used ++ more) = .ok (v, more)

/-- Reading no port at all. -/
theorem ReadsPrefix.pure {α : Type} (v : α) : ReadsPrefix fun bytes => .ok (v, bytes) := by
  intro bytes rest v' h
  cases h
  exact ⟨[], rfl, fun _ => rfl⟩

/-- Reading one port and then the ports after it, which may depend on what the first one carried. -/
theorem ReadsPrefix.bind {α β : Type} {take : List Byte → Except DecodeError (α × List Byte)}
    {next : α → List Byte → Except DecodeError (β × List Byte)}
    (htake : ReadsPrefix take) (hnext : ∀ v, ReadsPrefix (next v)) :
    ReadsPrefix fun bytes => (take bytes).bind fun p => next p.1 p.2 := by
  intro bytes rest w h
  cases hfirst : take bytes with
  | error e => simp [hfirst, Except.bind] at h
  | ok p =>
    obtain ⟨v, mid⟩ := p
    simp only [hfirst, Except.bind] at h
    obtain ⟨used, rfl, hused⟩ := htake bytes mid v hfirst
    obtain ⟨used', rfl, hused'⟩ := hnext v mid rest w h
    refine ⟨used ++ used', (List.append_assoc ..).symm, fun more => ?_⟩
    simp [hused, Except.bind, hused']

theorem readsPrefix_takeNarrow (n : Nat) : ReadsPrefix (takeNarrow n) := by
  intro bytes rest v h
  cases bytes with
  | nil => cases h
  | cons b bytes =>
    rw [takeNarrow] at h
    split at h
    · next hfit => cases h; exact ⟨[b], rfl, fun more => by simp [takeNarrow, hfit]⟩
    · cases h

theorem readsPrefix_takeWide (n : Nat) : ReadsPrefix (takeWide n) := by
  intro bytes rest v h
  rcases bytes with _ | ⟨lo, _ | ⟨hi, bytes⟩⟩
  · cases h
  · cases h
  · rw [takeWide] at h
    split at h
    · next hfit => cases h; exact ⟨[lo, hi], rfl, fun more => by simp [takeWide, hfit]⟩
    · cases h

/-- A value in groups of seven bits, its last group the first one with bit 7 clear: integers and lengths alike. -/
theorem readsPrefix_of_groups {α : Type} {take : List Byte → Except DecodeError (α × List Byte)} {last : Byte → α}
    {more : Byte → α → α} (hnil : take [] = .error .operandMissing)
    (hcons : ∀ b bytes, take (b :: bytes) =
      if b.toNat < 128 then .ok (last b, bytes) else (take bytes).map fun p => (more b p.1, p.2)) :
    ReadsPrefix take := by
  intro bytes
  induction bytes with
  | nil => intro rest v h; rw [hnil] at h; cases h
  | cons b bytes ih =>
    intro rest v h
    rw [hcons] at h
    split at h
    · next hlast => cases h; exact ⟨[b], rfl, fun bytes' => by simp [hcons, hlast]⟩
    · next hmore =>
      cases hgroups : take bytes with
      | error e => rw [hgroups] at h; cases h
      | ok p =>
        rw [hgroups] at h
        cases h
        obtain ⟨used, rfl, hused⟩ := ih _ _ hgroups
        exact ⟨b :: used, rfl, fun bytes' => by simp [hcons, hmore, hused, Except.map]⟩

theorem readsPrefix_takeInt : ReadsPrefix takeInt :=
  readsPrefix_of_groups (last := fun b => signed7 b.toNat) (more := fun b v => v * 128 + ((b.toNat - 128 : Nat) : Int))
    rfl fun b bytes => by
      rw [takeInt]
      cases takeInt bytes <;> rfl

theorem readsPrefix_takeLength : ReadsPrefix takeLength :=
  readsPrefix_of_groups (last := fun b => b.toNat) (more := fun b v => v * 128 + (b.toNat - 128)) rfl
    fun b bytes => by
      rw [takeLength]
      cases takeLength bytes <;> rfl

/-- What `takeExactly n` leaves is what stands after the `n` characters it reads. -/
theorem takeExactly_eq_ok {n : Nat} {bytes rest : List Byte} {s : Chars} (h : takeExactly n bytes = .ok (s, rest)) :
    s.length = n ∧ bytes = s ++ rest := by
  induction n generalizing bytes s with
  | zero => cases h; exact ⟨rfl, rfl⟩
  | succ n ih =>
    cases bytes with
    | nil => cases h
    | cons b bytes =>
      rw [takeExactly] at h
      split at h
      · next s' rest' hrest =>
        cases h
        obtain ⟨hlen, rfl⟩ := ih hrest
        exact ⟨by rw [List.length_cons, hlen], rfl⟩
      · cases h

theorem readsPrefix_takeExactly (n : Nat) : ReadsPrefix (takeExactly n) := by
  intro bytes rest s h
  obtain ⟨rfl, rfl⟩ := takeExactly_eq_ok h
  exact ⟨s, rfl, takeExactly_append s⟩

/-- A character-sequence port is its length and then that many characters. -/
theorem takeChars_eq_bind (bytes : List Byte) :
    takeChars bytes = (takeLength bytes).bind fun p => takeExactly p.1 p.2 := by
  rw [takeChars]
  cases takeLength bytes <;> rfl

theorem readsPrefix_takeChars : ReadsPrefix takeChars :=
  funext takeChars_eq_bind ▸ readsPrefix_takeLength.bind readsPrefix_takeExactly

/-- The last port of a unit completes the application. -/
theorem ReadsPrefix.lastPort {α : Type} {take : List Byte → Except DecodeError (α × List Byte)}
    (htake : ReadsPrefix take) (application : α → Instr) :
    ReadsPrefix fun bytes => (take bytes).bind fun p => .ok (application p.1, p.2) :=
  htake.bind fun v => .pure (application v)

/-- Each unit reads its ports in turn, in the order of R39's table. -/
theorem readsPrefix_takeOperands (op : Op) : ReadsPrefix (takeOperands op) := by
  cases op with
  | hexr3 => exact (readsPrefix_takeWide 12).lastPort .hexr3
  | hexr4 => exact (readsPrefix_takeWide 16).lastPort .hexr4
  | hexp3 => exact readsPrefix_takeChars.lastPort .hexp3
  | hexp4 => exact readsPrefix_takeChars.lastPort .hexp4
  | pack12 =>
    exact readsPrefix_takeInt.bind fun p => readsPrefix_takeInt.bind fun d =>
      readsPrefix_takeInt.lastPort (.pack12 p d)
  | unpack12 => exact (readsPrefix_takeWide 12).lastPort .unpack12
  | encode12 =>
    exact readsPrefix_takeInt.bind fun p => readsPrefix_takeInt.bind fun d =>
      readsPrefix_takeInt.lastPort (.encode12 p d)
  | decode12 => exact readsPrefix_takeChars.lastPort .decode12
  | decodebatch12 => exact readsPrefix_takeChars.lastPort .decodebatch12
  | picknorm =>
    exact readsPrefix_takeInt.bind fun a => readsPrefix_takeInt.bind fun b =>
      readsPrefix_takeInt.lastPort (.picknorm a b)
  | par15 => exact (readsPrefix_takeWide 15).lastPort .par15
  | pack16 =>
    exact readsPrefix_takeInt.bind fun a => readsPrefix_takeInt.bind fun b => readsPrefix_takeInt.bind fun p =>
      readsPrefix_takeInt.lastPort (.pack16 a b p)
  | pickdenorm =>
    exact (readsPrefix_takeNarrow 2).bind fun c => (readsPrefix_takeNarrow 3).bind fun a =>
      (readsPrefix_takeNarrow 3).lastPort (.pickdenorm c a)
  | unpack16 => exact (readsPrefix_takeWide 16).lastPort .unpack16
  | encode16 =>
    exact readsPrefix_takeInt.bind fun a => readsPrefix_takeInt.bind fun b => readsPrefix_takeInt.bind fun p =>
      readsPrefix_takeInt.lastPort (.encode16 a b p)
  | decode16 => exact readsPrefix_takeChars.lastPort .decode16

/-- Decoding that succeeds has read a unit number and then that unit's ports. -/
theorem decode_eq_ok {bytes rest : List Byte} {i : Instr} (h : decode bytes = .ok (i, rest)) :
    ∃ (b : Byte) (ports : List Byte) (op : Op), bytes = b :: ports ∧ Op.ofNumber b.toNat = some op ∧
      takeOperands op ports = .ok (i, rest) := by
  cases bytes with
  | nil => cases h
  | cons b ports =>
    rw [decode] at h
    split at h
    · next op hop => exact ⟨b, ports, op, rfl, hop, h⟩
    · cases h

/-- Settles O5: the unit number is the nonempty part, and its ports read from the front. -/
theorem decodeReadsPrefixOnly : Obligations.DecodeReadsPrefixOnly := by
  intro bytes rest i h
  obtain ⟨b, ports, op, rfl, hop, hports⟩ := decode_eq_ok h
  obtain ⟨used, rfl, hused⟩ := readsPrefix_takeOperands op ports rest i hports
  exact ⟨b :: used, List.cons_ne_nil _ _, rfl, fun more => by simp [decode, hop, hused]⟩

/-- Every unit reads back the operands presented to it. -/
theorem takeOperands_putOperands (i : Instr) : Laws.ReadBack.Statement i := by
  cases i with
  | hexr3 w => exact Laws.ReadBack.hexr3 w
  | hexr4 w => exact Laws.ReadBack.hexr4 w
  | hexp3 s => exact Laws.ReadBack.hexp3 s
  | hexp4 s => exact Laws.ReadBack.hexp4 s
  | pack12 p d t => exact Laws.ReadBack.pack12 p d t
  | unpack12 w => exact Laws.ReadBack.unpack12 w
  | encode12 p d t => exact Laws.ReadBack.encode12 p d t
  | decode12 s => exact Laws.ReadBack.decode12 s
  | decodebatch12 s => exact Laws.ReadBack.decodebatch12 s
  | picknorm a b p => exact Laws.ReadBack.picknorm a b p
  | par15 v => exact Laws.ReadBack.par15 v
  | pack16 a b p d => exact Laws.ReadBack.pack16 a b p d
  | pickdenorm c a b => exact Laws.ReadBack.pickdenorm c a b
  | unpack16 w => exact Laws.ReadBack.unpack16 w
  | encode16 a b p d => exact Laws.ReadBack.encode16 a b p d
  | decode16 s => exact Laws.ReadBack.decode16 s

/-- A presented application is decoded as itself, and what follows it stays (R11). -/
theorem decode_encode (i : Instr) (rest : List Byte) : decode (encode i ++ rest) = .ok (i, rest) := by
  rw [decode_encode_append, takeOperands_putOperands]

/-- Where a table word reads as an application, presenting the word presents that application. -/
theorem tableInstrBytes_of_decodeTableWord {nbits w : Nat} {i : Instr} (h : decodeTableWord nbits w = some i) :
    tableInstrBytes nbits w = encode i := by
  simp [tableInstrBytes, h]

end Sys2Proof
end

section
/-! One step and the state around it (10_state.md): what a step runs, that it leaves nothing behind, and that exec is
the block of unit state. -/

namespace Sys2Proof.Machine

/-- A step on characters that hold an application runs it on what follows (R11). -/
theorem step_of_decode {s : State} {i : Instr} {rest : List Byte} (h : decode s.inputs = .ok (i, rest)) :
    step s = exec i { s with inputs := rest } := by
  simp [step, h]

/-- A step on characters that hold no application is refused (R101). -/
theorem step_of_decode_error {s : State} {e : DecodeError} (h : decode s.inputs = .error e) :
    step s = .refused (.notPresented e) := by
  simp [step, h]

/-- An application's outcome depends on the state through its inputs alone (R10, R92). -/
theorem exec_congr_inputs (i : Instr) {s t : State} (h : s.inputs = t.inputs) : exec i s = exec i t := by
  rw [exec_eq, exec_eq, State.present, State.present, h]

/-- A step's outcome depends on the state through its inputs alone (R10, R92). -/
theorem step_congr_inputs {s t : State} (h : s.inputs = t.inputs) : step s = step t := by
  cases ht : decode t.inputs with
  | error e => rw [step_of_decode_error ht, step_of_decode_error (h ▸ ht)]
  | ok p =>
    rw [step_of_decode ht, step_of_decode (h ▸ ht)]
    exact exec_congr_inputs p.1 rfl

/-- What an application answers is its result on the outputs, and the inputs as they were. -/
theorem exec_next {i : Instr} {s t : State} (h : exec i s = .next t) : t = s.present i.op (resultOf i) := by
  rw [exec_eq] at h
  exact (Host.Outcome.next.inj h).symm

/-- A caller who has received nothing holds legal outputs. -/
theorem State.Legal.of_out_none {s : State} (h : s.out = none) : s.Legal := by
  intro o ho
  rw [h] at ho
  cases ho

/-- Settles O1. -/
theorem stepRunsDecodedApplication : Obligations.StepRunsDecodedApplication :=
  fun _ _ _ h => step_of_decode h

/-- Settles O6: the presented bits are the characters of `i`, and `i` runs as it would in `s`, whose outputs
no operation reads. -/
theorem presentedWordRunsNext : Obligations.PresentedWordRunsNext := by
  intro s nbits w i h
  have hdecode : decode (s.withFetchWord nbits w).inputs = .ok (i, s.inputs) := by
    rw [State.withFetchWord, tableInstrBytes_of_decodeTableWord h, decode_encode]
  rw [step_of_decode hdecode]
  exact exec_congr_inputs i rfl

/-- Settles O8. -/
theorem resetHoldsNothing : Obligations.ResetHoldsNothing :=
  ⟨rfl, .of_out_none State.reset_out, step_of_decode_error (by rw [State.reset_inputs, decode])⟩

/-- Settles O9: the one result is `resultOf i`. -/
theorem resultDependsOnOperandsAlone : Obligations.ResultDependsOnOperandsAlone :=
  fun i => ⟨resultOf i, exec_eq i⟩

/-- Settles O53: steps and operations see the inputs alone, and an operation leaves those as they were. -/
theorem stepForgetsEarlierOutputs : Obligations.StepForgetsEarlierOutputs := by
  refine ⟨fun s t => step_congr_inputs, fun i j s t h => exec_congr_inputs j ?_⟩
  rw [exec_next h, State.present_inputs]

/-- Settles O55. -/
theorem execIsUnitStateBlock : Obligations.ExecIsUnitStateBlock :=
  ⟨fun _ => rfl, exec_eq_block, fun _ _ _ => rfl⟩

/-- Settles O10: both states show the `err` of `resultOf i`. -/
theorem errIsNotSticky : Obligations.ErrIsNotSticky := by
  intro i s s' t t' h h'
  rw [exec_next h, exec_next h', State.present_err, State.present_err]
  exact ⟨rfl, rfl⟩

/-- Settles O36: the code is that of the unit, the free value included (log entry 7). -/
theorem picknormCompletesOnAllOperands : Obligations.PicknormCompletesOnAllOperands :=
  fun a b p => ⟨picknorm a b p, exec_eq (.picknorm a b p)⟩

end Sys2Proof.Machine
end

section
/-! Every result is one its unit can show (R16, R17, R88): what each operation can answer, said once, and from it that a
step keeps the outputs legal. -/

namespace Sys2Proof.Machine

/-! ## The token layer -/

theorem isUpperHex_hexchar (v : Nibble) : isUpperHex (hexchar v) = true := by
  revert v; decide

theorem isToken_hexr3 (w : Word12) : isToken 3 (hexr3 w) = true := by
  simp [isToken, hexr3, isUpperHex_hexchar]

theorem isToken_hexr4 (w : Word16) : isToken 4 (hexr4 w) = true := by
  simp [isToken, hexr4, isUpperHex_hexchar]

/-- A rendered word is an encoder's token exactly when the word is one the encoder produces. -/
theorem producedToken12_hexr3 (w : Word12) : producedToken12 (hexr3 w) = produced12 w := by
  simp [producedToken12, isToken_hexr3]

/-- A rendered word is a token with rolls and parity in order exactly when the word is. -/
theorem producedToken16_hexr4 (w : Word16) : producedToken16 (hexr4 w) = rollsAndParityOk w := by
  simp [producedToken16, isToken_hexr4]

theorem hexp3_ok_or_formatError (lower : Bool) (s : Chars) :
    (∃ w, hexp3 lower s = .ok w) ∨ hexp3 lower s = .error .formatError := by
  obtain ⟨c0, c1, c2, v0, v1, v2, rfl, h0, h1, h2⟩ | ⟨-, he⟩ := hexp3_cases lower s
  · exact .inl ⟨_, hexp3_digits h0 h1 h2⟩
  · exact .inr he

theorem hexp4_ok_or_formatError (lower : Bool) (s : Chars) :
    (∃ w, hexp4 lower s = .ok w) ∨ hexp4 lower s = .error .formatError := by
  obtain ⟨c0, c1, c2, c3, v0, v1, v2, v3, rfl, h0, h1, h2, h3⟩ | ⟨-, he⟩ := hexp4_cases lower s
  · exact .inl ⟨_, hexp4_digits h0 h1 h2 h3⟩
  · exact .inr he

/-! ## The 12-bit schema -/

/-- A word PACK12 answers holds fields within its bounds (R40); its only error is RangeError. -/
theorem pack12_produced_or_rangeError (p d t : Int) :
    (∃ w, pack12 p d t = .ok w ∧ produced12 w = true) ∨ pack12 p d t = .error .rangeError := by
  cases h : accepts12 p d t with
  | false => exact .inr (pack12_reject h)
  | true =>
    obtain ⟨w, hw, hval⟩ := pack12_accept h
    obtain ⟨hp, hd, ht⟩ := accepts12_iff.1 h
    have hfields : w.toNat / 512 ≤ 6 ∧ w.toNat / 4 % 128 ≤ 100 := by omega
    exact .inl ⟨w, hw, by simp [produced12, hfields]⟩

theorem decode12_ok_or_formatError (lower : Bool) (s : Chars) :
    (∃ r, decode12 lower s = .ok r) ∨ decode12 lower s = .error .formatError := by
  obtain ⟨w, h⟩ | h := hexp3_ok_or_formatError lower s
  · exact .inl ⟨unpack12 w, by rw [decode12, h, Except.map]⟩
  · exact .inr (by rw [decode12, h, Except.map])

theorem decodeChunks_ok_or_formatError (lower : Bool) (chunks : List Chars) :
    (∃ rs, decodeChunks lower chunks = .ok rs) ∨ decodeChunks lower chunks = .error .formatError := by
  induction chunks with
  | nil => exact .inl ⟨[], rfl⟩
  | cons c rest ih =>
    rw [decodeChunks_cons]
    obtain ⟨r, hc⟩ | hc := decode12_ok_or_formatError lower c
    · obtain ⟨rs, hrest⟩ | hrest := ih
      · exact .inl ⟨r :: rs, by rw [hc, hrest]; rfl⟩
      · exact .inr (by rw [hc, hrest]; rfl)
    · exact .inr (by rw [hc]; rfl)

theorem decodebatch12_ok_or_formatError (lower : Bool) (s : Chars) :
    (∃ rs, decodebatch12 lower s = .ok rs) ∨ decodebatch12 lower s = .error .formatError := by
  rw [decodebatch12]
  split
  · exact decodeChunks_ok_or_formatError lower (chunks3 s)
  · exact .inr rfl

/-! ## The 16-bit schema -/

/-- A word PACK16 answers passes the parity check and holds rolls in 1 to 6 (R41, R68); its only error is RangeError. -/
theorem pack16_rollsAndParityOk_or_rangeError (a b p d : Int) :
    (∃ w, pack16 a b p d = .ok w ∧ rollsAndParityOk w = true) ∨ pack16 a b p d = .error .rangeError := by
  cases h : accepts16 a b p d with
  | false => exact .inr (pack16_reject h)
  | true =>
    obtain ⟨w, q, hw, hparity, hval⟩ := pack16_accept h
    obtain ⟨ha, hb, hp, hd⟩ := accepts16_iff.1 h
    have hcode : (pickCode a b p).toNat < 4 := (pickCode a b p).isLt
    have hq : q.toNat < 2 := q.isLt
    have hrolls : (1 ≤ w.toNat / 8192 ∧ w.toNat / 8192 ≤ 6) ∧
        (1 ≤ w.toNat / 1024 % 8 ∧ w.toNat / 1024 % 8 ≤ 6) := by omega
    exact .inl ⟨w, hw, by simp [rollsAndParityOk, (parityOk_iff w).1 hparity, hrolls]⟩

/-- PICKDENORM gives 0, one of the rolls, or 3 (R72). -/
theorem pickdenorm_cases (c : BitVec 2) (roll1 roll2 : BitVec 3) :
    pickdenorm c roll1 roll2 = 0#3 ∨ pickdenorm c roll1 roll2 = roll1 ∨ pickdenorm c roll1 roll2 = roll2 ∨
      pickdenorm c roll1 roll2 = 3#3 := by
  obtain rfl | rfl | rfl | rfl : c = 0#2 ∨ c = 1#2 ∨ c = 2#2 ∨ c = 3#2 := by revert c; decide
  · exact .inl rfl
  · exact .inr (.inl rfl)
  · exact .inr (.inr (.inl rfl))
  · exact .inr (.inr (.inr rfl))

/-- A record UNPACK16 answers holds a pick PICKDENORM gives (R72, R73); its only error is IntegrityError. -/
theorem unpack16_decodedPick_or_integrityError (w : Word16) :
    (∃ r, unpack16 w = .ok r ∧ decodedPick r = true) ∨ unpack16 w = .error .integrityError := by
  cases h : parityOk w with
  | false => exact .inr (unpack16_fail h)
  | true =>
    obtain ⟨r, c, hr, -, -, -, -, hpick⟩ := unpack16_pass h
    have hcases := pickdenorm_cases c r.roll1 r.roll2
    rw [← hpick] at hcases
    exact .inl ⟨r, hr, by simpa [decodedPick, or_assoc] using hcases⟩

/-! ## Every operation -/

/-- Whatever an application's operands, its result is one its unit can show. -/
theorem resultOf_legal (i : Instr) : Outputs.legal ⟨i.op, resultOf i⟩ = true := by
  cases i with
  | hexr3 w => exact isToken_hexr3 w
  | hexr4 w => exact isToken_hexr4 w
  | hexp3 s => obtain ⟨w, h⟩ | h := hexp3_ok_or_formatError Config.lowerHexOk s <;> rw [resultOf, h] <;> rfl
  | hexp4 s => obtain ⟨w, h⟩ | h := hexp4_ok_or_formatError Config.lowerHexOk s <;> rw [resultOf, h] <;> rfl
  | pack12 p d t =>
    obtain ⟨w, h, hw⟩ | h := pack12_produced_or_rangeError p d t <;> rw [resultOf, h]
    · exact hw
    · rfl
  | unpack12 w => rfl
  | encode12 p d t =>
    obtain ⟨w, h, hw⟩ | h := pack12_produced_or_rangeError p d t <;> rw [resultOf, encode12, h]
    · exact (producedToken12_hexr3 w).trans hw
    · rfl
  | decode12 s => obtain ⟨r, h⟩ | h := decode12_ok_or_formatError Config.lowerHexOk s <;> rw [resultOf, h] <;> rfl
  | decodebatch12 s =>
    obtain ⟨rs, h⟩ | h := decodebatch12_ok_or_formatError Config.lowerHexOk s <;> rw [resultOf, h] <;> rfl
  | picknorm a b p => rfl
  | par15 v => rfl
  | pack16 a b p d =>
    obtain ⟨w, h, hw⟩ | h := pack16_rollsAndParityOk_or_rangeError a b p d <;> rw [resultOf, h]
    · exact hw
    · rfl
  | pickdenorm c a b => rfl
  | unpack16 w =>
    obtain ⟨r, h, hr⟩ | h := unpack16_decodedPick_or_integrityError w <;> rw [resultOf, h]
    · exact hr
    · rfl
  | encode16 a b p d =>
    obtain ⟨w, h, hw⟩ | h := pack16_rollsAndParityOk_or_rangeError a b p d <;> rw [resultOf, encode16, h]
    · exact (producedToken16_hexr4 w).trans hw
    · rfl
  | decode16 s =>
    obtain ⟨w, h⟩ | h := hexp4_ok_or_formatError Config.lowerHexOk s <;> rw [resultOf, decode16, h]
    · rw [Except.bind]
      obtain ⟨r, hr, hpick⟩ | hr := unpack16_decodedPick_or_integrityError w <;> rw [hr]
      · exact hpick
      · rfl
    · rfl

/-- Settles O12: a step's outputs are those of the application it ran, whatever stood there before. -/
theorem everyStepKeepsOutputsLegal : Obligations.EveryStepKeepsOutputsLegal := by
  intro s s' _ hstep o ho
  obtain ⟨i, rest, -, rfl⟩ := step_next hstep
  cases ho
  exact resultOf_legal i

end Sys2Proof.Machine
end

section
/-! Tokens of one schema in the other schema's decoder (R29): a single token has the wrong length, but joined 16-bit
tokens are digit characters throughout, so a batch of them is cut into chunks of three and decoded silently. -/

namespace Sys2Proof.Machine

/-! ## The token layer -/

theorem hexp3_of_length_ne {lower : Bool} {s : Chars} (h : s.length ≠ 3) : hexp3 lower s = .error .formatError := by
  obtain ⟨c0, c1, c2, v0, v1, v2, rfl, -⟩ | ⟨-, he⟩ := hexp3_cases lower s
  · exact absurd rfl h
  · exact he

theorem hexp4_of_length_ne {lower : Bool} {s : Chars} (h : s.length ≠ 4) : hexp4 lower s = .error .formatError := by
  obtain ⟨c0, c1, c2, c3, v0, v1, v2, v3, rfl, -⟩ | ⟨-, he⟩ := hexp4_cases lower s
  · exact absurd rfl h
  · exact he

/-- HEXP3 accepts any three digit characters, whatever wrote them. -/
theorem hexp3_ok_of_digits {lower : Bool} {s : Chars} (hlen : s.length = 3) (hdigits : ∀ c ∈ s, hexval lower c ≠ none) :
    ∃ w, hexp3 lower s = .ok w := by
  obtain ⟨c0, c1, c2, v0, v1, v2, rfl, h0, h1, h2⟩ | ⟨hne | ⟨c, hc, hnone⟩, -⟩ := hexp3_cases lower s
  · exact ⟨_, hexp3_digits h0 h1 h2⟩
  · exact absurd hlen hne
  · exact absurd hnone (hdigits c hc)

theorem hexval_ne_none_of_mem_hexr4 {lower : Bool} {c : Byte} {w : Word16} (h : c ∈ hexr4 w) :
    hexval lower c ≠ none := by
  have hchar : ∃ v, c = hexchar v := by
    simp only [hexr4, List.mem_cons, List.not_mem_nil, or_false] at h
    obtain h | h | h | h := h <;> exact ⟨_, h⟩
  obtain ⟨v, rfl⟩ := hchar
  simp

/-! ## The 12-bit decoders -/

theorem decode12_of_length_ne {lower : Bool} {s : Chars} (h : s.length ≠ 3) :
    decode12 lower s = .error .formatError := by
  rw [decode12, hexp3_of_length_ne h, Except.map]

theorem decode12_ok_of_digits {lower : Bool} {s : Chars} (hlen : s.length = 3)
    (hdigits : ∀ c ∈ s, hexval lower c ≠ none) : ∃ r, decode12 lower s = .ok r := by
  obtain ⟨w, hw⟩ := hexp3_ok_of_digits hlen hdigits
  exact ⟨unpack12 w, by rw [decode12, hw, Except.map]⟩

/-- A chunk is three characters of the batch. -/
theorem length_and_subset_of_mem_chunks3 {s c : Chars} (h : c ∈ chunks3 s) : c.length = 3 ∧ c ⊆ s := by
  fun_induction chunks3 s with
  | case1 c0 c1 c2 rest ih =>
    obtain rfl | hrest := List.mem_cons.1 h
    · exact ⟨rfl, by simp⟩
    · obtain ⟨hlen, hsub⟩ := ih hrest
      exact ⟨hlen, fun x hx => by simp [hsub hx]⟩
  | case2 => cases h

/-- Chunks that each decode give one record each (R61). -/
theorem decodeChunks_ok_of_forall {lower : Bool} {chunks : List Chars}
    (h : ∀ c ∈ chunks, ∃ r, decode12 lower c = .ok r) :
    ∃ rs, rs.length = chunks.length ∧ decodeChunks lower chunks = .ok rs := by
  induction chunks with
  | nil => exact ⟨[], rfl, rfl⟩
  | cons c rest ih =>
    obtain ⟨r, hr⟩ := h c List.mem_cons_self
    obtain ⟨rs, hlen, hrs⟩ := ih fun c' hc' => h c' (List.mem_cons_of_mem c hc')
    exact ⟨r :: rs, by simp [hlen], by rw [decodeChunks_cons, hr, hrs]; rfl⟩

/-- DECODEBATCH12 accepts any digit characters whose number is a multiple of 3, three to a record. -/
theorem decodebatch12_ok_of_digits {lower : Bool} {s : Chars} (hlen : s.length % 3 = 0)
    (hdigits : ∀ c ∈ s, hexval lower c ≠ none) :
    ∃ rs, rs.length = s.length / 3 ∧ decodebatch12 lower s = .ok rs := by
  have hchunks : ∀ c ∈ chunks3 s, ∃ r, decode12 lower c = .ok r := by
    intro c hc
    obtain ⟨hthree, hsub⟩ := length_and_subset_of_mem_chunks3 hc
    exact decode12_ok_of_digits hthree fun x hx => hdigits x (hsub hx)
  obtain ⟨rs, hrs, hok⟩ := decodeChunks_ok_of_forall hchunks
  exact ⟨rs, by rw [hrs, chunks3_length], by rw [decodebatch12, if_pos hlen, hok]⟩

/-! ## The 16-bit tokens -/

theorem decode16_of_length_ne {lower : Bool} {s : Chars} (h : s.length ≠ 4) :
    decode16 lower s = .error .formatError := by
  rw [decode16, hexp4_of_length_ne h, Except.bind]

/-- A token ENCODE16 answers is a rendered 16-bit word (R75). -/
theorem eq_hexr4_of_encode16 {a b p d : Int} {token : Chars} (h : encode16 a b p d = .ok token) :
    ∃ w, token = hexr4 w := by
  rw [encode16] at h
  cases hw : pack16 a b p d with
  | error e => rw [hw] at h; cases h
  | ok w => rw [hw] at h; exact ⟨w, (Except.ok.inj h).symm⟩

/-- The token on the outputs of ENCODE16 is a rendered 16-bit word. -/
theorem eq_hexr4_of_exec_encode16 {a b p d : Int} {token : Chars} {s : State}
    (h : exec (.encode16 a b p d) s = .next { s with out := some ⟨.encode16, .ok (.chars token)⟩ }) :
    ∃ w, token = hexr4 w := by
  have hresult : (encode16 a b p d).map Value.chars = .ok (.chars token) := (exec_eq_next_iff rfl).1 h
  cases he : encode16 a b p d with
  | error e => rw [he] at hresult; cases hresult
  | ok t => rw [he] at hresult; cases hresult; exact eq_hexr4_of_encode16 he

theorem length_flatten_of_hexr4 {tokens : List Chars} (h : ∀ token ∈ tokens, ∃ w, token = hexr4 w) :
    tokens.flatten.length = tokens.length * 4 := by
  have hfour : ∀ n ∈ tokens.map List.length, n = 4 := by
    simp only [List.mem_map]
    rintro _ ⟨token, htoken, rfl⟩
    obtain ⟨w, rfl⟩ := h token htoken
    exact hexr4_length w
  rw [List.length_flatten, List.sum_eq_card_nsmul _ 4 hfour, List.length_map, smul_eq_mul]

/-- Joined 16-bit tokens whose number is a multiple of 3 are a batch of 12-bit tokens to DECODEBATCH12. -/
theorem decodebatch12_flatten_of_hexr4 (lower : Bool) {tokens : List Chars}
    (h : ∀ token ∈ tokens, ∃ w, token = hexr4 w) (hcount : tokens.length % 3 = 0) :
    ∃ rs, rs.length = tokens.length * 4 / 3 ∧ decodebatch12 lower tokens.flatten = .ok rs := by
  have hdigits : ∀ c ∈ tokens.flatten, hexval lower c ≠ none := by
    intro c hc
    obtain ⟨token, htoken, hmem⟩ := List.mem_flatten.1 hc
    obtain ⟨w, rfl⟩ := h token htoken
    exact hexval_ne_none_of_mem_hexr4 hmem
  rw [← length_flatten_of_hexr4 h]
  exact decodebatch12_ok_of_digits (by rw [length_flatten_of_hexr4 h]; omega) hdigits

/-- Settles O33: alone, the other schema's token has the wrong length; joined, ENCODE16 tokens are digit characters
whose number is a multiple of 3, which is all DECODEBATCH12 checks. -/
theorem otherSchemaTokens : Obligations.OtherSchemaTokens := by
  refine ⟨fun chars s hlen => ?_, fun chars s hlen => ?_, fun tokens s htokens hcount => ?_⟩
  · refine (exec_eq_next_iff rfl).2 ?_
    rw [resultOf, decode12_of_length_ne (by omega), Except.map]
  · refine (exec_eq_next_iff rfl).2 ?_
    rw [resultOf, decode16_of_length_ne (by omega), Except.map]
  · have hrendered : ∀ token ∈ tokens, ∃ w, token = hexr4 w := by
      intro token htoken
      obtain ⟨a, b, p, d, h⟩ := htokens token htoken
      exact eq_hexr4_of_exec_encode16 h
    obtain ⟨rs, hlen, hok⟩ := decodebatch12_flatten_of_hexr4 Config.lowerHexOk hrendered hcount
    exact ⟨rs, hlen, (exec_eq_next_iff rfl).2 (by rw [resultOf, hok, Except.map])⟩

end Sys2Proof.Machine
end

section
/-! Encoding and decoding an application (30_encoding.md section 5). -/

namespace Sys2Proof

/-- Settles O4: each unit reads back its operands, and its number names it. -/
theorem decodeUndoesEncode : Obligations.DecodeUndoesEncode :=
  decode_encode

end Sys2Proof
end

section
/-! What the two packing units answer, said as an equivalence: the encodings of 30_encoding.md section 6 are the words on
its left-hand side. -/

namespace Sys2Proof.Machine

/-- An operation leaves a result on the outputs of every state exactly when it is the application's result (R26). -/
theorem forall_exec_eq_next_iff {i : Instr} {op : Op} {r : Result} (h : i.op = op) :
    (∀ s : State, exec i s = .next { s with out := some ⟨op, r⟩ }) ↔ resultOf i = r :=
  ⟨fun hall => (exec_eq_next_iff h).1 (hall .reset), fun hr _ => (exec_eq_next_iff h).2 hr⟩

/-- A unit's result carries a value on its output port exactly when the unit answers that value. -/
theorem map_eq_ok_iff {α : Type} {wrap : α → Value} (hwrap : Function.Injective wrap) {r : Except ErrorKind α}
    {v : α} : r.map wrap = .ok (wrap v) ↔ r = .ok v := by
  cases r with
  | error e => simp [Except.map]
  | ok u => simp [Except.map, hwrap.eq_iff]

theorem forall_exec_pack12_iff {p d t : Int} {w : Word12} :
    (∀ s : State, exec (.pack12 p d t) s = .next { s with out := some ⟨.pack12, .ok (.word12 w)⟩ }) ↔
      pack12 p d t = .ok w :=
  (forall_exec_eq_next_iff rfl).trans (map_eq_ok_iff fun _ _ => Value.word12.inj)

theorem forall_exec_pack16_iff {a b p d : Int} {w : Word16} :
    (∀ s : State, exec (.pack16 a b p d) s = .next { s with out := some ⟨.pack16, .ok (.word16 w)⟩ }) ↔
      pack16 a b p d = .ok w :=
  (forall_exec_eq_next_iff rfl).trans (map_eq_ok_iff fun _ _ => Value.word16.inj)

/-- PACK12 answers a word exactly when it accepts the operands and the word's value is theirs (R55). -/
theorem pack12_eq_ok_iff {p d t : Int} {w : Word12} :
    pack12 p d t = .ok w ↔ accepts12 p d t = true ∧ (w.toNat : Int) = p * 512 + d * 4 + t := by
  cases h : accepts12 p d t with
  | false => simp [pack12_reject h]
  | true =>
    obtain ⟨w', hw', hval⟩ := pack12_accept h
    rw [hw', Except.ok.injEq, ← BitVec.toNat_inj, eq_self, true_and]
    omega

/-- Two words that pass the parity check and agree above bit 0 are one word (R71). -/
theorem eq_of_parityOk {w w' : Word16} (h : parityOk w = true) (h' : parityOk w' = true)
    (hpayload : w.toNat / 2 = w'.toNat / 2) : w = w' := by
  have hfield : takeField w 1 15 = takeField w' 1 15 := by
    rw [← BitVec.toNat_inj, takeField_toNat, takeField_toNat, pow_one, hpayload]
  rw [parityOk, beq_iff_eq] at h h'
  have hbit : (takeField w 0 1).toNat = (takeField w' 0 1).toNat := by rw [← h, ← h', hfield]
  simp only [takeField_toNat] at hbit
  rw [← BitVec.toNat_inj]
  omega

/-- PACK16 answers a word exactly when it accepts the operands, the word passes the parity check and its payload holds
the four fields (R69). -/
theorem pack16_eq_ok_iff {a b p d : Int} {w : Word16} :
    pack16 a b p d = .ok w ↔ accepts16 a b p d = true ∧ parityOk w = true ∧
      ((w.toNat / 2 : Nat) : Int) = a * 4096 + b * 512 + (pickCode a b p).toNat * 128 + d := by
  cases h : accepts16 a b p d with
  | false => simp [pack16_reject h]
  | true =>
    obtain ⟨w', q, hw', hparity, hval⟩ := pack16_accept h
    have hq : q.toNat < 2 := q.isLt
    rw [hw', Except.ok.injEq]
    constructor
    · rintro rfl
      exact ⟨rfl, hparity, by omega⟩
    · rintro ⟨-, hok, hfields⟩
      exact eq_of_parityOk hparity hok (by omega)

end Sys2Proof.Machine
end

section
/-! How many words the 12-bit encoder produces (R40). -/

namespace Sys2Proof.Machine

/-- A word is one PACK12 answers exactly when its pick and destination fields are within the bounds (R40, R57). -/
theorem exists_pack12_eq_ok_iff (w : Word12) :
    (∃ p d t : Int, pack12 p d t = .ok w) ↔ w.toNat / 512 ≤ 6 ∧ w.toNat / 4 % 128 ≤ 100 := by
  simp only [pack12_eq_ok_iff, accepts12_iff]
  constructor
  · rintro ⟨p, d, t, ⟨hp, hd, ht⟩, hval⟩
    omega
  · rintro ⟨hp, hd⟩
    exact ⟨(w.toNat / 512 : Nat), (w.toNat / 4 % 128 : Nat), (w.toNat % 4 : Nat), by omega, by omega⟩

/-- The words PACK12 produces, in increasing order: 404 = 101 · 4 for each pick. -/
def nthProduced12 (k : Fin 2828) : Word12 := BitVec.ofNat 12 (k / 404 * 512 + k % 404)

theorem nthProduced12_toNat (k : Fin 2828) : (nthProduced12 k).toNat = k / 404 * 512 + k % 404 := by
  have hk := k.isLt
  exact BitVec.toNat_ofNat .. |>.trans (Nat.mod_eq_of_lt (by omega))

theorem nthProduced12_injective : Function.Injective nthProduced12 := by
  intro j k h
  have hval := congrArg BitVec.toNat h
  rw [nthProduced12_toNat, nthProduced12_toNat] at hval
  exact Fin.ext (by omega)

/-- The enumeration reaches exactly the words with both fields within bounds. -/
theorem exists_nthProduced12_eq_iff (w : Word12) :
    (∃ k, nthProduced12 k = w) ↔ w.toNat / 512 ≤ 6 ∧ w.toNat / 4 % 128 ≤ 100 := by
  simp only [← BitVec.toNat_inj, nthProduced12_toNat]
  constructor
  · rintro ⟨k, hk⟩
    omega
  · rintro ⟨hp, hd⟩
    exact ⟨⟨w.toNat / 512 * 404 + w.toNat % 512, by omega⟩, by dsimp only; omega⟩

/-- Settles O34: `nthProduced12` counts the words within bounds, which are those PACK12 answers. -/
theorem pack12Produces2828Words : Obligations.Pack12Produces2828Words := by
  refine ⟨List.ofFn nthProduced12, List.nodup_ofFn.2 nthProduced12_injective, List.length_ofFn, fun w => ?_⟩
  have hmem : w ∈ List.ofFn nthProduced12 ↔ w.toNat / 512 ≤ 6 ∧ w.toNat / 4 % 128 ≤ 100 :=
    List.mem_ofFn.trans (exists_nthProduced12_eq_iff w)
  simp only [forall_exec_pack12_iff, exists_pack12_eq_ok_iff]
  exact ⟨hmem, hmem⟩

end Sys2Proof.Machine
end

section
/-! How many words pass the parity check (R41): each payload has exactly one parity bit that fits it. -/

namespace Sys2Proof.Machine

/-- A payload and the parity bit that fits it (R67). -/
def withParity (v : Payload) : Word16 := v ++ par15 v

theorem withParity_toNat (v : Payload) : (withParity v).toNat = v.toNat * 2 + (par15 v).toNat := by
  rw [withParity, BitVec.toNat_append, ← Nat.shiftLeft_add_eq_or_of_lt (par15 v).isLt, Nat.shiftLeft_eq, pow_one]

theorem payload_withParity (v : Payload) : (withParity v).toNat / 2 = v.toNat := by
  have hq : (par15 v).toNat < 2 := (par15 v).isLt
  rw [withParity_toNat]
  omega

theorem withParity_injective : Function.Injective withParity := by
  intro v v' h
  rw [← BitVec.toNat_inj, ← payload_withParity v, h, payload_withParity]

theorem parityOk_withParity (v : Payload) : parityOk (withParity v) = true := by
  have hv : v.toNat < 2 ^ 15 := v.isLt
  have hq : (par15 v).toNat < 2 := (par15 v).isLt
  have hpayload : takeField (withParity v) 1 15 = v := by
    rw [← BitVec.toNat_inj, takeField_toNat, pow_one, payload_withParity, Nat.mod_eq_of_lt hv]
  have hparity : takeField (withParity v) 0 1 = par15 v := by
    rw [← BitVec.toNat_inj, takeField_toNat, withParity_toNat]
    omega
  rw [parityOk, hpayload, hparity, beq_self_eq_true]

/-- The words that pass are the payloads with the parity bit that fits them. -/
theorem exists_withParity_eq_iff (w : Word16) : (∃ v, withParity v = w) ↔ parityOk w = true := by
  constructor
  · rintro ⟨v, rfl⟩
    exact parityOk_withParity v
  · intro h
    have hw := w.isLt
    refine ⟨takeField w 1 15, eq_of_parityOk (parityOk_withParity _) h ?_⟩
    rw [payload_withParity, takeField_toNat]
    omega

/-- The words that pass the parity check, in the order of their payloads. -/
def passingWords : List Word16 := List.ofFn fun k : Fin (2 ^ 15) => withParity (BitVec.ofFin k)

theorem passingWords_nodup : passingWords.Nodup :=
  List.nodup_ofFn.2 fun _ _ h => BitVec.ofFin.inj (withParity_injective h)

theorem mem_passingWords_iff {w : Word16} : w ∈ passingWords ↔ parityOk w = true := by
  rw [passingWords, List.mem_ofFn, ← exists_withParity_eq_iff]
  exact ⟨fun ⟨k, hk⟩ => ⟨_, hk⟩, fun ⟨v, hv⟩ => ⟨v.toFin, hv⟩⟩

/-- Settles O41: there are as many passing words as payloads. -/
theorem halfOfTheWordsPassParity : Obligations.HalfOfTheWordsPassParity := by
  refine ⟨passingWords, passingWords_nodup, List.length_ofFn, fun w s => ⟨fun hmem => ?_, fun hmem => ?_⟩⟩
  · obtain ⟨r, -, hr, -⟩ := unpack16_pass (mem_passingWords_iff.1 hmem)
    exact ⟨r, (exec_eq_next_iff rfl).2 (by rw [resultOf, hr, Except.map])⟩
  · have hfail : parityOk w = false := Bool.eq_false_iff.2 (mt mem_passingWords_iff.2 hmem)
    exact (exec_eq_next_iff rfl).2 (by rw [resultOf, unpack16_fail hfail, Except.map])

end Sys2Proof.Machine
end

section
/-! Which words the 16-bit encoder produces (R41, R42). -/

namespace Sys2Proof.Machine

/-- The codes PICKNORM gives for two rolls and some pick within bounds: all, except 3 beside a roll of 3, which is then
role 1 or 2 (R65). Code 2 beside equal rolls comes from a pick of 2 or 6 (D11). -/
theorem exists_pickCode_eq_iff {a b : Int} (ha : 1 ≤ a ∧ a ≤ 6) (hb : 1 ≤ b ∧ b ≤ 6) (c : Nat) :
    (∃ p : Int, (0 ≤ p ∧ p ≤ 6) ∧ (pickCode a b p).toNat = c) ↔ c < 4 ∧ (c = 3 → a ≠ 3 ∧ b ≠ 3) := by
  simp only [← Int.natCast_inj (n := c), pickCode_toNat]
  constructor
  · rintro ⟨p, hp, hcode⟩
    split_ifs at hcode <;> omega
  · rintro ⟨hc, hthree⟩
    interval_cases c
    · exact ⟨0, by omega, by split_ifs <;> omega⟩
    · exact ⟨a, by omega, by split_ifs <;> omega⟩
    · obtain hne | ⟨rfl, hne⟩ | ⟨rfl, rfl⟩ : b ≠ a ∨ (b = a ∧ a ≠ 2) ∨ (b = a ∧ a = 2) := by omega
      · exact ⟨b, by omega, by split_ifs <;> omega⟩
      · exact ⟨2, by omega, by split_ifs <;> omega⟩
      · exact ⟨6, by omega, by split_ifs <;> omega⟩
    · exact ⟨3, by omega, by split_ifs <;> omega⟩

/-- Settles O48: a word's fields name the operands, except that its code must be one PICKNORM gives beside its rolls. -/
theorem pack16ProducedWords : Obligations.Pack16ProducedWords := by
  intro w
  have hw := w.isLt
  simp only [forall_exec_pack16_iff, pack16_eq_ok_iff, accepts16_iff, parityOk_iff, popcount]
  constructor
  · rintro ⟨a, b, p, d, ⟨ha, hb, hp, hd⟩, hparity, hfields⟩
    obtain ⟨hc, hthree⟩ := (exists_pickCode_eq_iff ha hb _).1 ⟨p, hp, rfl⟩
    exact ⟨hparity, by omega, by omega, by omega⟩
  · rintro ⟨hparity, hroll1, hroll2, hthree⟩
    have ha : 1 ≤ ((w.toNat / 8192 : Nat) : Int) ∧ ((w.toNat / 8192 : Nat) : Int) ≤ 6 := by omega
    have hb : 1 ≤ ((w.toNat / 1024 % 8 : Nat) : Int) ∧ ((w.toNat / 1024 % 8 : Nat) : Int) ≤ 6 := by omega
    obtain ⟨p, hp, hcode⟩ := (exists_pickCode_eq_iff ha hb (w.toNat / 256 % 4)).2 ⟨by omega, by omega⟩
    exact ⟨_, _, p, (w.toNat / 2 % 128 : Nat), ⟨ha, hb, hp, by omega⟩, hparity, by rw [hcode]; omega⟩

end Sys2Proof.Machine
end

section
/-! The sixteen digit characters (R45, R46): which character is read as which nibble. -/

namespace Sys2Proof.Machine

theorem isLowerHex_iff {c : Byte} : isLowerHex c = true ↔ 0x61 ≤ c.toNat ∧ c.toNat ≤ 0x66 :=
  decide_eq_true_iff

/-- A lowercase letter has a value only where lowercase is accepted (R46). -/
theorem hexval_of_isLowerHex {c : Byte} (lower : Bool) (h : isLowerHex c = true) :
    hexval lower c = if lower then some (BitVec.ofNat 4 (c.toNat - 0x61 + 10)) else none := by
  rw [isLowerHex_iff] at h
  rw [hexval, if_neg (by omega), if_neg (by omega), if_pos h]

/-- The digit characters: `hexchar`'s own, and a lowercase letter where it is accepted (R46). -/
theorem hexval_eq_some_iff {lower : Bool} {c : Byte} {v : Nibble} :
    hexval lower c = some v ↔
      c = hexchar v ∨ (lower = true ∧ 10 ≤ v.toNat ∧ c.toNat = 0x61 + (v.toNat - 10)) := by
  have hv : v.toNat < 16 := v.isLt
  constructor
  · intro h
    cases hlow : isLowerHex c with
    | false =>
      left
      rw [hexchar_of_hexval h, (raiseCase_eq_self_iff c).2 hlow]
    | true =>
      right
      rw [hexval_of_isLowerHex lower hlow, Option.ite_none_right_eq_some, Option.some.injEq] at h
      obtain ⟨hlower, rfl⟩ := h
      rw [isLowerHex_iff] at hlow
      rw [BitVec.toNat_ofNat, Nat.mod_eq_of_lt (by omega)]
      exact ⟨hlower, by omega, by omega⟩
  · rintro (rfl | ⟨rfl, hletter, hc⟩)
    · exact hexval_hexchar lower v
    · rw [hexval_of_isLowerHex true (isLowerHex_iff.2 (by omega)), if_pos rfl,
        show c.toNat - 0x61 + 10 = v.toNat by omega, BitVec.ofNat_toNat, BitVec.setWidth_eq]

/-- Settles O17, by evaluating `hexchar` at the sixteen nibbles. -/
theorem hexcharIsUppercaseAscii : Obligations.HexcharIsUppercaseAscii := by
  unfold Obligations.HexcharIsUppercaseAscii
  decide

/-- Settles O18. -/
theorem hexvalAcceptsDigitsOnly : Obligations.HexvalAcceptsDigitsOnly :=
  fun _ _ _ => hexval_eq_some_iff

end Sys2Proof.Machine
end

section
/-! Rendering (R47, R48): the token HEXR3 and HEXR4 leave on the outputs, digit by digit. -/

namespace Sys2Proof.Machine

/-- HEXR3 leaves on the outputs the word's token and no other. -/
theorem exec_hexr3_iff {w : Word12} {token : Chars} {s : State} :
    exec (.hexr3 w) s = .next { s with out := some ⟨.hexr3, .ok (.chars token)⟩ } ↔ hexr3 w = token :=
  (exec_eq_next_iff rfl).trans (by rw [resultOf, Except.ok.injEq, Value.chars.injEq])

/-- HEXR4 leaves on the outputs the word's token and no other. -/
theorem exec_hexr4_iff {w : Word16} {token : Chars} {s : State} :
    exec (.hexr4 w) s = .next { s with out := some ⟨.hexr4, .ok (.chars token)⟩ } ↔ hexr4 w = token :=
  (exec_eq_next_iff rfl).trans (by rw [resultOf, Except.ok.injEq, Value.chars.injEq])

/-- An extracted field is the quotient by its place value, cut to the field's width (R5, R37). -/
theorem takeField_eq_ofNat {n : Nat} (w : BitVec n) (shift width : Nat) :
    takeField w shift width = BitVec.ofNat width (w.toNat / 2 ^ shift) := by
  rw [← BitVec.toNat_inj, takeField_toNat, BitVec.toNat_ofNat]

/-- The three digits of a 12-bit word, the nibbles by their place values (R47). -/
theorem hexr3_eq_digits (w : Word12) :
    hexr3 w = [hexchar (BitVec.ofNat 4 (w.toNat / 256)), hexchar (BitVec.ofNat 4 (w.toNat / 16)),
      hexchar (BitVec.ofNat 4 w.toNat)] := by
  simp only [hexr3, takeField_eq_ofNat, Nat.reducePow, Nat.div_one]

/-- The four digits of a 16-bit word, the nibbles by their place values (R48). -/
theorem hexr4_eq_digits (w : Word16) :
    hexr4 w = [hexchar (BitVec.ofNat 4 (w.toNat / 4096)), hexchar (BitVec.ofNat 4 (w.toNat / 256)),
      hexchar (BitVec.ofNat 4 (w.toNat / 16)), hexchar (BitVec.ofNat 4 w.toNat)] := by
  simp only [hexr4, takeField_eq_ofNat, Nat.reducePow, Nat.div_one]

/-- Settles O19. -/
theorem hexr3RendersNibbles : Obligations.Hexr3RendersNibbles :=
  fun w _ => exec_hexr3_iff.2 (hexr3_eq_digits w)

/-- Settles O20. -/
theorem hexr4RendersNibbles : Obligations.Hexr4RendersNibbles :=
  fun w _ => exec_hexr4_iff.2 (hexr4_eq_digits w)

end Sys2Proof.Machine
end

section
/-! Parsing (R49, R50): which texts HEXP3 and HEXP4 accept, and the value of the word they answer. -/

namespace Sys2Proof.Machine

/-- A unit's result is an error exactly when the unit answers that error. -/
theorem map_eq_error_iff {α : Type} {wrap : α → Value} {r : Except ErrorKind α} {e : ErrorKind} :
    r.map wrap = .error e ↔ r = .error e := by
  cases r <;> simp [Except.map]

/-- HEXP3 leaves a word on the outputs exactly when it parses the text to that word. -/
theorem exec_hexp3_ok_iff {chars : Chars} {w : Word12} {s : State} :
    exec (.hexp3 chars) s = .next { s with out := some ⟨.hexp3, .ok (.word12 w)⟩ } ↔
      hexp3 Config.lowerHexOk chars = .ok w :=
  (exec_eq_next_iff rfl).trans (map_eq_ok_iff fun _ _ => Value.word12.inj)

/-- HEXP4 leaves a word on the outputs exactly when it parses the text to that word. -/
theorem exec_hexp4_ok_iff {chars : Chars} {w : Word16} {s : State} :
    exec (.hexp4 chars) s = .next { s with out := some ⟨.hexp4, .ok (.word16 w)⟩ } ↔
      hexp4 Config.lowerHexOk chars = .ok w :=
  (exec_eq_next_iff rfl).trans (map_eq_ok_iff fun _ _ => Value.word16.inj)

/-- HEXP3 rejects exactly the texts of another length or with an invalid character (R49, R86). -/
theorem hexp3_eq_formatError_iff {lower : Bool} {chars : Chars} :
    hexp3 lower chars = .error .formatError ↔ chars.length ≠ 3 ∨ ∃ c ∈ chars, hexval lower c = none := by
  obtain ⟨c0, c1, c2, v0, v1, v2, rfl, h0, h1, h2⟩ | ⟨hbad, herror⟩ := hexp3_cases lower chars
  · simp [hexp3_digits h0 h1 h2, h0, h1, h2]
  · exact iff_of_true herror hbad

/-- HEXP4 rejects exactly the texts of another length or with an invalid character (R50, R86). -/
theorem hexp4_eq_formatError_iff {lower : Bool} {chars : Chars} :
    hexp4 lower chars = .error .formatError ↔ chars.length ≠ 4 ∨ ∃ c ∈ chars, hexval lower c = none := by
  obtain ⟨c0, c1, c2, c3, v0, v1, v2, v3, rfl, h0, h1, h2, h3⟩ | ⟨hbad, herror⟩ := hexp4_cases lower chars
  · simp [hexp4_digits h0 h1 h2 h3, h0, h1, h2, h3]
  · exact iff_of_true herror hbad

/-- A nibble set above the `k` bits in use adds its value at that place (R36). -/
theorem setNibble_or_toNat {n k : Nat} (v : Nibble) {b : BitVec n} (hn : k + 4 ≤ n) (hb : b.toNat < 2 ^ k) :
    (v.setWidth n <<< k ||| b).toNat = v.toNat * 2 ^ k + b.toNat := by
  have hfits : v.toNat * 2 ^ k < 2 ^ n := calc
    v.toNat * 2 ^ k < 2 ^ 4 * 2 ^ k := Nat.mul_lt_mul_of_pos_right v.isLt (Nat.two_pow_pos k)
    _ = 2 ^ (k + 4) := by rw [Nat.pow_add, Nat.mul_comm]
    _ ≤ 2 ^ n := Nat.pow_le_pow_right (by decide) hn
  rw [BitVec.toNat_or, BitVec.toNat_shiftLeft, BitVec.toNat_setWidth_of_le (by omega), Nat.shiftLeft_eq,
    Nat.mod_eq_of_lt hfits, ← Nat.shiftLeft_eq, Nat.shiftLeft_add_eq_or_of_lt hb]

/-- The lowest nibbles of a word are two digits by their place values. -/
theorem lowNibbles_toNat {n : Nat} (v v' : Nibble) (hn : 8 ≤ n) :
    (v.setWidth n <<< 4 ||| v'.setWidth n).toNat = v.toNat * 16 + v'.toNat := by
  have hv' : (v'.setWidth n).toNat = v'.toNat := BitVec.toNat_setWidth_of_le (by omega)
  rw [setNibble_or_toNat v hn (hv' ▸ v'.isLt), hv']
  omega

/-- HEXP3's word is its three digits by their place values (R49). -/
theorem hexp3_digits_toNat {lower : Bool} {c0 c1 c2 : Byte} {v0 v1 v2 : Nibble} (h0 : hexval lower c0 = some v0)
    (h1 : hexval lower c1 = some v1) (h2 : hexval lower c2 = some v2) :
    ∃ w, hexp3 lower [c0, c1, c2] = .ok w ∧ w.toNat = v0.toNat * 256 + v1.toNat * 16 + v2.toNat := by
  refine ⟨_, hexp3_digits h0 h1 h2, ?_⟩
  have hv1 := v1.isLt
  have hv2 := v2.isLt
  have hlow := lowNibbles_toNat (n := 12) v1 v2 (by decide)
  rw [BitVec.or_assoc, setNibble_or_toNat v0 (by decide) (by omega), hlow]
  omega

/-- HEXP4's word is its four digits by their place values (R50). -/
theorem hexp4_digits_toNat {lower : Bool} {c0 c1 c2 c3 : Byte} {v0 v1 v2 v3 : Nibble}
    (h0 : hexval lower c0 = some v0) (h1 : hexval lower c1 = some v1) (h2 : hexval lower c2 = some v2)
    (h3 : hexval lower c3 = some v3) :
    ∃ w, hexp4 lower [c0, c1, c2, c3] = .ok w ∧
      w.toNat = v0.toNat * 4096 + v1.toNat * 256 + v2.toNat * 16 + v3.toNat := by
  refine ⟨_, hexp4_digits h0 h1 h2 h3, ?_⟩
  have hv1 := v1.isLt
  have hv2 := v2.isLt
  have hv3 := v3.isLt
  have hlow := lowNibbles_toNat (n := 16) v2 v3 (by decide)
  have hrest := setNibble_or_toNat (k := 8) v1 (b := v2.setWidth 16 <<< 4 ||| v3.setWidth 16) (by decide) (by omega)
  rw [BitVec.or_assoc, BitVec.or_assoc, setNibble_or_toNat v0 (by decide) (by omega), hrest, hlow]
  omega

/-- Settles O21. -/
theorem hexp3ParsesThreeDigits : Obligations.Hexp3ParsesThreeDigits := by
  refine ⟨fun s c0 c1 c2 v0 v1 v2 h0 h1 h2 => ?_, fun s chars hbad => ?_⟩
  · obtain ⟨w, hw, hval⟩ := hexp3_digits_toNat h0 h1 h2
    exact ⟨w, exec_hexp3_ok_iff.2 hw, hval⟩
  · exact (exec_eq_next_iff rfl).2 (map_eq_error_iff.2 (hexp3_eq_formatError_iff.2 hbad))

/-- Settles O22. -/
theorem hexp4ParsesFourDigits : Obligations.Hexp4ParsesFourDigits := by
  refine ⟨fun s c0 c1 c2 c3 v0 v1 v2 v3 h0 h1 h2 h3 => ?_, fun s chars hbad => ?_⟩
  · obtain ⟨w, hw, hval⟩ := hexp4_digits_toNat h0 h1 h2 h3
    exact ⟨w, exec_hexp4_ok_iff.2 hw, hval⟩
  · exact (exec_eq_next_iff rfl).2 (map_eq_error_iff.2 (hexp4_eq_formatError_iff.2 hbad))

end Sys2Proof.Machine
end

section
/-! Rendering and parsing undo each other up to letter case (R51). -/

namespace Sys2Proof.Machine

theorem raiseCase_eq_ite : raiseCase = fun c : Byte =>
    if 0x61 ≤ c.toNat ∧ c.toNat ≤ 0x66 then c - 0x20#8 else c := by
  funext c
  simp only [raiseCase, isLowerHex_iff]

/-- Settles O23: the token is the rendered word, which parses to itself whatever `LOWER_HEX_OK`. -/
theorem parsingUndoesRendering : Obligations.ParsingUndoesRendering :=
  ⟨fun w _ _ => ⟨hexr3 w, exec_hexr3_iff.2 rfl, exec_hexp3_ok_iff.2 (hexp3_hexr3 _ w)⟩,
    fun w _ _ => ⟨hexr4 w, exec_hexr4_iff.2 rfl, exec_hexp4_ok_iff.2 (hexp4_hexr4 _ w)⟩⟩

/-- Settles O24: the statement's letter map is `raiseCase`. -/
theorem renderingUppercasesParsedText : Obligations.RenderingUppercasesParsedText := by
  unfold Obligations.RenderingUppercasesParsedText
  rw [← raiseCase_eq_ite]
  exact ⟨fun _ _ _ h => exec_hexr3_iff.2 (hexr3_of_hexp3 (exec_hexp3_ok_iff.1 h)),
    fun _ _ _ h => exec_hexr4_iff.2 (hexr4_of_hexp4 (exec_hexp4_ok_iff.1 h))⟩

/-- Of a text HEXP3 accepts, rendering gives the text itself exactly when it has no lowercase letter. -/
theorem hexr3_eq_text_iff {lower : Bool} {chars : Chars} {w : Word12} (h : hexp3 lower chars = .ok w) :
    hexr3 w = chars ↔ ∀ c ∈ chars, isLowerHex c = false := by
  rw [hexr3_of_hexp3 h, map_raiseCase_eq_iff]

/-- Of a text HEXP4 accepts, rendering gives the text itself exactly when it has no lowercase letter. -/
theorem hexr4_eq_text_iff {lower : Bool} {chars : Chars} {w : Word16} (h : hexp4 lower chars = .ok w) :
    hexr4 w = chars ↔ ∀ c ∈ chars, isLowerHex c = false := by
  rw [hexr4_of_hexp4 h, map_raiseCase_eq_iff]

/-- Settles O54: the three laws on the outputs are those of the units, each at both widths. -/
theorem tokenTextDeterminesWord : Obligations.TokenTextDeterminesWord := by
  refine ⟨fun w w' token s s' h h' => ?_, fun w w' token s s' h h' => ?_, fun a b w s ha hb hupper => ?_,
    fun a b w s ha hb hupper => ?_, fun chars w s h => ?_, fun chars w s h => ?_⟩
  · exact hexr3_injective ((exec_hexr3_iff.1 h).trans (exec_hexr3_iff.1 h').symm)
  · exact hexr4_injective ((exec_hexr4_iff.1 h).trans (exec_hexr4_iff.1 h').symm)
  · rw [List.forall_mem_append] at hupper
    exact hexp3_injective (exec_hexp3_ok_iff.1 ha) (exec_hexp3_ok_iff.1 hb) hupper.1 hupper.2
  · rw [List.forall_mem_append] at hupper
    exact hexp4_injective (exec_hexp4_ok_iff.1 ha) (exec_hexp4_ok_iff.1 hb) hupper.1 hupper.2
  · exact exec_hexr3_iff.trans (hexr3_eq_text_iff (exec_hexp3_ok_iff.1 h))
  · exact exec_hexr4_iff.trans (hexr4_eq_text_iff (exec_hexp4_ok_iff.1 h))

end Sys2Proof.Machine
end

section
/-! What the units of the 12-bit schema leave on the outputs (R16, R55 to R61), and the two halves of a composite: what
its first unit answers and what its second makes of it. -/

namespace Sys2Proof.Machine

/-- A unit's value after another unit is made from a value the other answers. -/
theorem exceptMap_eq_ok_iff {α β : Type} {f : α → β} {r : Except ErrorKind α} {v : β} :
    r.map f = .ok v ↔ ∃ u, r = .ok u ∧ f u = v := by
  cases r <;> simp [Except.map]

theorem exec_pack12_ok_iff {p d t : Int} {w : Word12} {s : State} :
    exec (.pack12 p d t) s = .next { s with out := some ⟨.pack12, .ok (.word12 w)⟩ } ↔ pack12 p d t = .ok w :=
  (exec_eq_next_iff rfl).trans (map_eq_ok_iff fun _ _ => Value.word12.inj)

theorem exec_unpack12_iff {w : Word12} {r : Record12} {s : State} :
    exec (.unpack12 w) s = .next { s with out := some ⟨.unpack12, .ok (.record12 r)⟩ } ↔ unpack12 w = r :=
  (exec_eq_next_iff rfl).trans (by rw [resultOf, Except.ok.injEq, Value.record12.injEq])

theorem exec_encode12_ok_iff {p d t : Int} {token : Chars} {s : State} :
    exec (.encode12 p d t) s = .next { s with out := some ⟨.encode12, .ok (.chars token)⟩ } ↔
      encode12 p d t = .ok token :=
  (exec_eq_next_iff rfl).trans (map_eq_ok_iff fun _ _ => Value.chars.inj)

theorem exec_decode12_ok_iff {chars : Chars} {r : Record12} {s : State} :
    exec (.decode12 chars) s = .next { s with out := some ⟨.decode12, .ok (.record12 r)⟩ } ↔
      decode12 Config.lowerHexOk chars = .ok r :=
  (exec_eq_next_iff rfl).trans (map_eq_ok_iff fun _ _ => Value.record12.inj)

theorem exec_decodebatch12_ok_iff {chars : Chars} {rs : List Record12} {s : State} :
    exec (.decodebatch12 chars) s = .next { s with out := some ⟨.decodebatch12, .ok (.records12 rs)⟩ } ↔
      decodebatch12 Config.lowerHexOk chars = .ok rs :=
  (exec_eq_next_iff rfl).trans (map_eq_ok_iff fun _ _ => Value.records12.inj)

/-- PACK12 rejects exactly the operands outside a bound (R55, R85). -/
theorem pack12_eq_rangeError_iff {p d t : Int} :
    pack12 p d t = .error .rangeError ↔ ¬ ((0 ≤ p ∧ p ≤ 6) ∧ (0 ≤ d ∧ d ≤ 100) ∧ (0 ≤ t ∧ t ≤ 3)) := by
  rw [← accepts12_iff, Bool.not_eq_true]
  cases h : accepts12 p d t with
  | false => exact iff_of_true (pack12_reject h) rfl
  | true =>
    obtain ⟨w, hw, -⟩ := pack12_accept h
    simp [hw]

/-- ENCODE12's token is the rendered word PACK12 answers (R58). -/
theorem encode12_eq_ok_iff {p d t : Int} {token : Chars} :
    encode12 p d t = .ok token ↔ ∃ w, pack12 p d t = .ok w ∧ hexr3 w = token :=
  exceptMap_eq_ok_iff

/-- ENCODE12 rejects exactly when PACK12 does (R58). -/
theorem encode12_eq_rangeError_iff {p d t : Int} :
    encode12 p d t = .error .rangeError ↔ pack12 p d t = .error .rangeError := by
  rw [encode12]
  cases pack12 p d t <;> simp [Except.map]

/-- DECODE12's record is that of the word HEXP3 parses (R59). -/
theorem decode12_eq_ok_iff {lower : Bool} {chars : Chars} {r : Record12} :
    decode12 lower chars = .ok r ↔ ∃ w, hexp3 lower chars = .ok w ∧ unpack12 w = r :=
  exceptMap_eq_ok_iff

/-- DECODE12 rejects exactly the texts HEXP3 rejects (R59, R86). -/
theorem decode12_eq_formatError_iff {lower : Bool} {chars : Chars} :
    decode12 lower chars = .error .formatError ↔ chars.length ≠ 3 ∨ ∃ c ∈ chars, hexval lower c = none := by
  rw [← hexp3_eq_formatError_iff, decode12]
  cases hexp3 lower chars <;> simp [Except.map]

/-- A text DECODE12 answers a record for is three digit characters. -/
theorem length_and_digits_of_decode12_eq_ok {lower : Bool} {chars : Chars} {r : Record12}
    (h : decode12 lower chars = .ok r) : chars.length = 3 ∧ ∀ c ∈ chars, hexval lower c ≠ none := by
  have hgood : ¬ (chars.length ≠ 3 ∨ ∃ c ∈ chars, hexval lower c = none) := by
    rw [← decode12_eq_formatError_iff, h]
    simp
  simpa using hgood

/-- DECODE12's fields make up the word of the three digits, unchecked (R59). -/
theorem decode12_digits_toNat {lower : Bool} {c0 c1 c2 : Byte} {v0 v1 v2 : Nibble} (h0 : hexval lower c0 = some v0)
    (h1 : hexval lower c1 = some v1) (h2 : hexval lower c2 = some v2) :
    ∃ r, decode12 lower [c0, c1, c2] = .ok r ∧
      r.pick.toNat * 512 + r.destination.toNat * 4 + r.status.toNat =
        v0.toNat * 256 + v1.toNat * 16 + v2.toNat := by
  obtain ⟨w, hw, hval⟩ := hexp3_digits_toNat h0 h1 h2
  obtain ⟨hp, hd, ht⟩ := unpack12_toNat w
  exact ⟨unpack12 w, decode12_eq_ok_iff.2 ⟨w, hw, rfl⟩, by omega⟩

/-- Settles O26. -/
theorem unpack12ReturnsFields : Obligations.Unpack12ReturnsFields :=
  fun w _ => ⟨unpack12 w, exec_unpack12_iff.2 rfl, unpack12_toNat w⟩

/-- Settles O25. -/
theorem pack12PacksOrRejects : Obligations.Pack12PacksOrRejects := by
  refine fun p d t s => ⟨fun hp hd ht => ?_, fun hout => ?_⟩
  · obtain ⟨w, hw, hval⟩ := pack12_accept (accepts12_iff.2 ⟨hp, hd, ht⟩)
    exact ⟨w, exec_pack12_ok_iff.2 hw, hval⟩
  · exact (exec_eq_next_iff rfl).2 (map_eq_error_iff.2 (pack12_eq_rangeError_iff.2 hout))

/-- Settles O28: PACK12's word, its digits by their place values. -/
theorem encode12RendersPackedWord : Obligations.Encode12RendersPackedWord := by
  refine fun p d t s => ⟨fun hp hd ht => ?_, fun hout => ?_⟩
  · obtain ⟨w, hw, hval⟩ := pack12_accept (accepts12_iff.2 ⟨hp, hd, ht⟩)
    exact ⟨w, hval, exec_encode12_ok_iff.2 (encode12_eq_ok_iff.2 ⟨w, hw, hexr3_eq_digits w⟩)⟩
  · have hreject := encode12_eq_rangeError_iff.2 (pack12_eq_rangeError_iff.2 hout)
    exact (exec_eq_next_iff rfl).2 (map_eq_error_iff.2 hreject)

/-- Settles O29. -/
theorem decode12UnpacksParsedToken : Obligations.Decode12UnpacksParsedToken := by
  refine ⟨fun s c0 c1 c2 v0 v1 v2 h0 h1 h2 => ?_, fun s chars hbad => ?_⟩
  · obtain ⟨r, hr, hval⟩ := decode12_digits_toNat h0 h1 h2
    exact ⟨r, exec_decode12_ok_iff.2 hr, hval⟩
  · exact (exec_eq_next_iff rfl).2 (map_eq_error_iff.2 (decode12_eq_formatError_iff.2 hbad))

end Sys2Proof.Machine
end

section
/-! Packing and unpacking of the 12-bit schema undo each other (R57, R60). -/

namespace Sys2Proof.Machine

/-- A record's fields as PACK12 takes them. -/
def Record12.operands (r : Record12) : Int × Int × Int := (r.pick.toNat, r.destination.toNat, r.status.toNat)

theorem Record12.operands_eq_iff {r : Record12} {p d t : Int} :
    r.operands = (p, d, t) ↔
      (r.pick.toNat : Int) = p ∧ (r.destination.toNat : Int) = d ∧ (r.status.toNat : Int) = t := by
  rw [operands, Prod.mk.injEq, Prod.mk.injEq]

/-- Within the bounds the three fields of a packed word do not overlap (R57 (a)). -/
theorem operands_unpack12_of_pack12 {p d t : Int} {w : Word12} (h : pack12 p d t = .ok w) :
    (unpack12 w).operands = (p, d, t) := by
  obtain ⟨haccepts, hval⟩ := pack12_eq_ok_iff.1 h
  obtain ⟨hp, hd, ht⟩ := accepts12_iff.1 haccepts
  obtain ⟨hpick, hdest, hstatus⟩ := unpack12_toNat w
  rw [Record12.operands_eq_iff]
  omega

/-- PACK12 of a word's fields: the word, or a RangeError for one no encoder produces (R40, R57 (c)). -/
theorem pack12_unpack12 (w : Word12) :
    pack12 (unpack12 w).pick.toNat (unpack12 w).destination.toNat (unpack12 w).status.toNat =
      if (unpack12 w).pick.toNat ≤ 6 ∧ (unpack12 w).destination.toNat ≤ 100 then .ok w
      else .error .rangeError := by
  obtain ⟨hpick, hdest, hstatus⟩ := unpack12_toNat w
  split
  · next hin => exact pack12_eq_ok_iff.2 ⟨accepts12_iff.2 (by omega), by omega⟩
  · next hout => exact pack12_eq_rangeError_iff.2 (by omega)

/-- A token ENCODE12 answers decodes to its operands, whatever `LOWER_HEX_OK` (R60). -/
theorem decode12_of_encode12 (lower : Bool) {p d t : Int} {token : Chars} (h : encode12 p d t = .ok token) :
    ∃ r, decode12 lower token = .ok r ∧ r.operands = (p, d, t) := by
  obtain ⟨w, hw, rfl⟩ := encode12_eq_ok_iff.1 h
  exact ⟨unpack12 w, decode12_eq_ok_iff.2 ⟨w, hexp3_hexr3 lower w, rfl⟩, operands_unpack12_of_pack12 hw⟩

/-- Settles O27: PACK12 is injective because UNPACK12 gives the operands back. -/
theorem pack12AndUnpack12AreInverse : Obligations.Pack12AndUnpack12AreInverse := by
  refine ⟨fun p d t w s h => ?_, fun p d t p' d' t' w s h h' => ?_, fun w r s h => ?_⟩
  · have hfields := operands_unpack12_of_pack12 (exec_pack12_ok_iff.1 h)
    exact ⟨unpack12 w, exec_unpack12_iff.2 rfl, Record12.operands_eq_iff.1 hfields⟩
  · have hfields := operands_unpack12_of_pack12 (exec_pack12_ok_iff.1 h)
    rw [operands_unpack12_of_pack12 (exec_pack12_ok_iff.1 h'), Prod.mk.injEq, Prod.mk.injEq] at hfields
    obtain ⟨hp, hd, ht⟩ := hfields
    exact ⟨hp.symm, hd.symm, ht.symm⟩
  · obtain rfl := exec_unpack12_iff.1 h
    refine (exec_eq_next_iff rfl).2 ?_
    rw [resultOf, pack12_unpack12]
    split <;> rfl

/-- Settles O30. -/
theorem decode12UndoesEncode12 : Obligations.Decode12UndoesEncode12 := by
  intro p d t s s' hp hd ht
  obtain ⟨w, hw, -⟩ := pack12_accept (accepts12_iff.2 ⟨hp, hd, ht⟩)
  have htoken : encode12 p d t = .ok (hexr3 w) := encode12_eq_ok_iff.2 ⟨w, hw, rfl⟩
  obtain ⟨r, hr, hfields⟩ := decode12_of_encode12 Config.lowerHexOk htoken
  exact ⟨hexr3 w, r, exec_encode12_ok_iff.2 htoken, exec_decode12_ok_iff.2 hr, Record12.operands_eq_iff.1 hfields⟩

end Sys2Proof.Machine
end

section
/-! The batch decoder (R61, R62): its records are those of the chunks, each at its place. -/

namespace Sys2Proof.Machine

/-- A batch of whole chunks is cut at the offsets `3k` (R23). -/
theorem chunks3_eq_map_range {s : Chars} {n : Nat} (hlen : s.length = 3 * n) :
    chunks3 s = (List.range n).map fun k => (s.drop (3 * k)).take 3 := by
  have hcount : (chunks3 s).length = n := by rw [chunks3_length]; omega
  refine List.ext_getElem (by simp [hcount]) fun k hk _ => ?_
  rw [← Option.some.injEq, ← List.getElem?_eq_getElem hk, chunks3_getElem? s k (by omega)]
  simp

/-- A batch of whole chunks is its chunks joined. -/
theorem flatten_chunks3 {s : Chars} (hlen : s.length % 3 = 0) : (chunks3 s).flatten = s := by
  fun_induction chunks3 s with
  | case1 c0 c1 c2 rest ih =>
    have hrest : rest.length % 3 = 0 := by simp only [List.length_cons] at hlen; omega
    simp [ih hrest]
  | case2 s hshort =>
    rcases s with _ | ⟨a, _ | ⟨b, _ | ⟨c, t⟩⟩⟩
    · rfl
    · simp at hlen
    · simp at hlen
    · exact (hshort a b c t rfl).elim

/-- The loop of R61 answers one record for each chunk, in order, and only if every chunk has one. -/
theorem decodeChunks_eq_ok_iff {lower : Bool} {chunks : List Chars} {rs : List Record12} :
    decodeChunks lower chunks = .ok rs ↔ List.Forall₂ (fun c r => decode12 lower c = .ok r) chunks rs := by
  induction chunks generalizing rs with
  | nil => simp [decodeChunks, eq_comm]
  | cons c rest ih =>
    rw [decodeChunks_cons, List.forall₂_cons_left_iff]
    cases decode12 lower c with
    | error e => simp [Except.bind]
    | ok r => simp [Except.bind, exceptMap_eq_ok_iff, ih, @eq_comm _ rs]

/-- The loop of R61 succeeds exactly when every chunk decodes. -/
theorem exists_decodeChunks_eq_ok_iff {lower : Bool} {chunks : List Chars} :
    (∃ rs, decodeChunks lower chunks = .ok rs) ↔ ∀ c ∈ chunks, ∃ r, decode12 lower c = .ok r := by
  constructor
  · rintro ⟨rs, hrs⟩
    rw [decodeChunks_eq_ok_iff] at hrs
    induction hrs with
    | nil => simp
    | cons hr _ ih => exact List.forall_mem_cons.2 ⟨⟨_, hr⟩, ih⟩
  · intro h
    obtain ⟨rs, -, hrs⟩ := decodeChunks_ok_of_forall h
    exact ⟨rs, hrs⟩

/-- A batch of whole chunks decodes as the loop of R61 does. -/
theorem decodebatch12_eq_decodeChunks {lower : Bool} {s : Chars} (hlen : s.length % 3 = 0) :
    decodebatch12 lower s = decodeChunks lower (chunks3 s) :=
  if_pos hlen

/-- Record `k` of a batch is that of the three characters from offset `3k` (R23, R61). -/
theorem decode12_of_decodebatch12_getElem? {lower : Bool} {s : Chars} {n k : Nat} {rs : List Record12} {r : Record12}
    (hlen : s.length = 3 * n) (hrs : decodebatch12 lower s = .ok rs) (hk : rs[k]? = some r) :
    decode12 lower ((s.drop (3 * k)).take 3) = .ok r := by
  rw [decodebatch12_eq_decodeChunks (by omega), decodeChunks_eq_ok_iff, chunks3_eq_map_range hlen,
    List.forall₂_map_left_iff] at hrs
  obtain ⟨hlt, rfl⟩ := List.getElem?_eq_some_iff.1 hk
  have hrecord := hrs.get (hrs.length_eq ▸ hlt) hlt
  rwa [List.get_eq_getElem, List.getElem_range] at hrecord

/-- A batch of whole chunks succeeds exactly when every chunk does (R62). -/
theorem exists_decodebatch12_eq_ok_iff {lower : Bool} {s : Chars} {n : Nat} (hlen : s.length = 3 * n) :
    (∃ rs, decodebatch12 lower s = .ok rs) ↔
      ∀ k < n, ∃ r, decode12 lower ((s.drop (3 * k)).take 3) = .ok r := by
  rw [decodebatch12_eq_decodeChunks (by omega), exists_decodeChunks_eq_ok_iff, chunks3_eq_map_range hlen]
  simp only [List.forall_mem_map, List.mem_range]

/-- A batch DECODEBATCH12 answers records for is whole chunks of digit characters. -/
theorem length_and_digits_of_decodebatch12_eq_ok {lower : Bool} {s : Chars} {rs : List Record12}
    (hrs : decodebatch12 lower s = .ok rs) : s.length % 3 = 0 ∧ ∀ c ∈ s, hexval lower c ≠ none := by
  have hlen : s.length % 3 = 0 := by
    by_contra hne
    rw [decodebatch12, if_neg hne] at hrs
    cases hrs
  refine ⟨hlen, fun c hc => ?_⟩
  rw [decodebatch12_eq_decodeChunks hlen] at hrs
  rw [← flatten_chunks3 hlen] at hc
  obtain ⟨chunk, hchunk, hmem⟩ := List.mem_flatten.1 hc
  obtain ⟨r, hr⟩ := exists_decodeChunks_eq_ok_iff.1 ⟨rs, hrs⟩ chunk hchunk
  obtain ⟨-, hdigits⟩ := length_and_digits_of_decode12_eq_ok hr
  exact hdigits c hmem

/-- DECODEBATCH12 rejects exactly a length that is no multiple of 3 or an invalid character anywhere (R61, R86). -/
theorem decodebatch12_eq_formatError_iff {lower : Bool} {s : Chars} :
    decodebatch12 lower s = .error .formatError ↔ s.length % 3 ≠ 0 ∨ ∃ c ∈ s, hexval lower c = none := by
  constructor
  · intro herror
    by_contra! hgood
    obtain ⟨hlen, hdigits⟩ := hgood
    obtain ⟨rs, -, hrs⟩ := decodebatch12_ok_of_digits hlen hdigits
    rw [herror] at hrs
    cases hrs
  · intro hbad
    refine (decodebatch12_ok_or_formatError lower s).resolve_left ?_
    rintro ⟨rs, hrs⟩
    obtain ⟨hlen, hdigits⟩ := length_and_digits_of_decodebatch12_eq_ok hrs
    obtain hne | ⟨c, hc, hnone⟩ := hbad
    · exact hne hlen
    · exact hdigits c hc hnone

/-- Settles O31. -/
theorem batchDecodesChunksInOrder : Obligations.BatchDecodesChunksInOrder := by
  refine ⟨fun chars n s hlen hdigits => ?_, fun chars s hbad => ?_⟩
  · obtain ⟨rs, hcount, hrs⟩ := decodebatch12_ok_of_digits (by omega) hdigits
    exact ⟨rs, by omega, exec_decodebatch12_ok_iff.2 hrs, fun k r hk =>
      exec_decode12_ok_iff.2 (decode12_of_decodebatch12_getElem? hlen hrs hk)⟩
  · exact (exec_eq_next_iff rfl).2 (map_eq_error_iff.2 (decodebatch12_eq_formatError_iff.2 hbad))

/-- A token ahead of a batch gives its record ahead of the batch's. -/
theorem decodebatch12_append {lower : Bool} {token s : Chars} {r : Record12} {rs : List Record12}
    (htoken : decode12 lower token = .ok r) (hs : decodebatch12 lower s = .ok rs) :
    decodebatch12 lower (token ++ s) = .ok (r :: rs) := by
  obtain ⟨hthree, -⟩ := length_and_digits_of_decode12_eq_ok htoken
  obtain ⟨hlen, -⟩ := length_and_digits_of_decodebatch12_eq_ok hs
  have hlen' : (token ++ s).length % 3 = 0 := by rw [List.length_append]; omega
  rw [decodebatch12_eq_decodeChunks hlen] at hs
  rw [decodebatch12_eq_decodeChunks hlen', chunks3_append _ _ hthree, decodeChunks_cons, htoken, hs]
  rfl

/-- Joined tokens ENCODE12 answers for some moves decode to those moves, in order (R62). -/
theorem decodebatch12_flatten_of_encode12 (lower : Bool) {moves : List (Int × Int × Int)} {tokens : List Chars}
    (h : List.Forall₂ (fun m token => encode12 m.1 m.2.1 m.2.2 = .ok token) moves tokens) :
    ∃ rs, decodebatch12 lower tokens.flatten = .ok rs ∧ rs.map Record12.operands = moves := by
  induction h with
  | nil => exact ⟨[], rfl, rfl⟩
  | cons hfirst _ ih =>
    obtain ⟨r, hr, hfields⟩ := decode12_of_encode12 lower hfirst
    obtain ⟨rs, hrs, hmoves⟩ := ih
    exact ⟨r :: rs, decodebatch12_append hr hrs, by rw [List.map_cons, hfields, hmoves]⟩

/-- Settles O32: a batch succeeds with all its chunks, and joined tokens decode by induction on the moves. -/
theorem batchUndoesEncodedSequence : Obligations.BatchUndoesEncodedSequence := by
  refine ⟨fun chars n s hlen => ?_, fun moves tokens s hlen htokens => ?_⟩
  · simp only [exec_decodebatch12_ok_iff, exec_decode12_ok_iff]
    exact exists_decodebatch12_eq_ok_iff hlen
  · have hencoded : List.Forall₂ (fun m token => encode12 m.1 m.2.1 m.2.2 = .ok token) moves tokens := by
      refine List.forall₂_iff_get.2 ⟨hlen.symm, fun k hm ht => ?_⟩
      exact exec_encode12_ok_iff.1
        (htokens k _ _ _ _ (List.getElem?_eq_getElem hm) (List.getElem?_eq_getElem ht))
    obtain ⟨rs, hrs, hmoves⟩ := decodebatch12_flatten_of_encode12 Config.lowerHexOk hencoded
    exact ⟨rs, exec_decodebatch12_ok_iff.2 hrs, hmoves⟩

end Sys2Proof.Machine
end

section
/-! PICKNORM and PICKDENORM (R65, R66, R72): the code of a pick beside two rolls, and what pick a code stands for. -/

namespace Sys2Proof.Machine

theorem exec_picknorm_iff {a b p : Int} {c : BitVec 2} {s : State} :
    exec (.picknorm a b p) s = .next { s with out := some ⟨.picknorm, .ok (.code c)⟩ } ↔ picknorm a b p = c :=
  (exec_eq_next_iff rfl).trans (by rw [resultOf, Except.ok.injEq, Value.code.injEq])

theorem exec_pickdenorm_iff {c : BitVec 2} {a b pick : BitVec 3} {s : State} :
    exec (.pickdenorm c a b) s = .next { s with out := some ⟨.pickdenorm, .ok (.pick pick)⟩ } ↔
      pickdenorm c a b = pick :=
  (exec_eq_next_iff rfl).trans (by rw [resultOf, Except.ok.injEq, Value.pick.injEq])

/-- Within the range check PICKNORM is the code PACK16 packs (R65, R69). -/
theorem picknorm_of_accepts {a b p : Int} (h : acceptsRolls a b p = true) : picknorm a b p = pickCode a b p :=
  if_pos h

/-- PICKDENORM's pick as a number (R72). -/
theorem pickdenorm_toNat (c : BitVec 2) (a b : BitVec 3) :
    (pickdenorm c a b).toNat =
      if c.toNat = 0 then 0 else if c.toNat = 1 then a.toNat else if c.toNat = 2 then b.toNat else 3 := by
  obtain rfl | rfl | rfl | rfl : c = 0#2 ∨ c = 1#2 ∨ c = 2#2 ∨ c = 3#2 := by revert c; decide
  · rfl
  · rfl
  · rfl
  · rfl

/-- The pick that R66's table gives for rolls `a`, `b` and a pick `p` that has gone through its code and back. -/
def returnedPick (a b p : Int) : Int :=
  if p = 0 ∨ p = a ∨ p = b ∨ p = 3 then p else if p = 1 ∨ p = 5 then a else if p = 2 ∨ p = 6 then b else 0

/-- The code keeps exactly the picks that are 0, a roll or 3 (R66, R74 (b)). -/
theorem returnedPick_eq_self_iff {a b p : Int} (hp : 0 ≤ p ∧ p ≤ 6) :
    returnedPick a b p = p ↔ p = 0 ∨ p = a ∨ p = b ∨ p = 3 := by
  unfold returnedPick
  split_ifs <;> omega

/-- PICKDENORM of PICKNORM's code beside the same rolls is the pick of R66's table. -/
theorem pickdenorm_pickCode_toNat {a b : BitVec 3} {p : Int} (hp : 0 ≤ p ∧ p ≤ 6) :
    ((pickdenorm (pickCode a.toNat b.toNat p) a b).toNat : Int) = returnedPick a.toNat b.toNat p := by
  have hcode := pickCode_toNat a.toNat b.toNat p
  rw [pickdenorm_toNat, returnedPick]
  generalize (pickCode a.toNat b.toNat p).toNat = c at hcode ⊢
  split_ifs at hcode ⊢ <;> omega

/-- PICKNORM of the pick a code stands for is that code; only, equal rolls turn code 2 into 1 and a roll of 3 turns
code 3 into that roll's (R74 (c)). -/
theorem pickCode_pickdenorm_eq_iff {a b : BitVec 3} (c : BitVec 2) (ha : 1 ≤ a.toNat) (hb : 1 ≤ b.toNat) :
    (pickCode a.toNat b.toNat (pickdenorm c a b).toNat).toNat = c.toNat ↔
      ¬ ((c.toNat = 2 ∧ a = b) ∨ (c.toNat = 3 ∧ (a = 3#3 ∨ b = 3#3))) := by
  have hc : c.toNat < 4 := c.isLt
  have hcode := pickCode_toNat a.toNat b.toNat (pickdenorm c a b).toNat
  rw [pickdenorm_toNat] at hcode ⊢
  simp only [← BitVec.toNat_inj, BitVec.toNat_ofNat]
  split_ifs at hcode ⊢ <;> omega

/-- Settles O35. -/
theorem picknormGivesRoleCode : Obligations.PicknormGivesRoleCode := by
  intro a b p s ha hb hp
  have hcode : picknorm a b p = pickCode a b p := picknorm_of_accepts (acceptsRolls_iff.2 ⟨ha, hb, hp⟩)
  exact ⟨_, exec_picknorm_iff.2 hcode, pickCode_toNat a b p⟩

/-- Settles O44. -/
theorem pickdenormReversesCode : Obligations.PickdenormReversesCode :=
  fun _ _ _ => ⟨exec_pickdenorm_iff.2 rfl, exec_pickdenorm_iff.2 rfl, exec_pickdenorm_iff.2 rfl,
    exec_pickdenorm_iff.2 rfl⟩

/-- Settles O37: the code PICKNORM answers is the one PACK16 packs, and the table is `returnedPick`. -/
theorem picknormThenPickdenormTable : Obligations.PicknormThenPickdenormTable := by
  intro a b p s ha hb hp
  have hcode : picknorm a.toNat b.toNat p = pickCode a.toNat b.toNat p :=
    picknorm_of_accepts (acceptsRolls_iff.2 ⟨by omega, by omega, hp⟩)
  exact ⟨_, _, exec_picknorm_iff.2 hcode, exec_pickdenorm_iff.2 rfl, pickdenorm_pickCode_toNat hp⟩

end Sys2Proof.Machine
end

section
/-! Parity (R67, R68): PAR15 in its two forms, and which errors the check of UNPACK16 detects. -/

namespace Sys2Proof.Machine

theorem exec_par15_iff {v : Payload} {q : BitVec 1} {s : State} :
    exec (.par15 v) s = .next { s with out := some ⟨.par15, .ok (.parity q)⟩ } ↔ par15 v = q :=
  (exec_eq_next_iff rfl).trans (by rw [resultOf, Except.ok.injEq, Value.parity.injEq])

theorem exec_unpack16_ok_iff {w : Word16} {r : Record16} {s : State} :
    exec (.unpack16 w) s = .next { s with out := some ⟨.unpack16, .ok (.record16 r)⟩ } ↔ unpack16 w = .ok r :=
  (exec_eq_next_iff rfl).trans (map_eq_ok_iff fun _ _ => Value.record16.inj)

theorem exec_unpack16_error_iff {w : Word16} {e : ErrorKind} {s : State} :
    exec (.unpack16 w) s = .next { s with out := some ⟨.unpack16, .error e⟩ } ↔ unpack16 w = .error e :=
  (exec_eq_next_iff rfl).trans map_eq_error_iff

/-- A count modulo 2 is the exclusive or of what is counted (R67). -/
theorem countP_mod_two_eq_xor {α : Type} (p : α → Bool) (l : List α) :
    l.countP p % 2 = (l.foldr (fun a acc => acc ^^ p a) false).toNat := by
  induction l with
  | nil => rfl
  | cons a l ih =>
    rw [List.countP_cons, List.foldr_cons, Nat.add_mod, ih]
    cases l.foldr (fun a acc => acc ^^ p a) false <;> cases p a <;> rfl

/-- PAR15 as the exclusive or of the bits, bit 14 first (R67). -/
theorem par15_eq_xor (v : Payload) :
    par15 v = BitVec.ofBool ((List.range 15).foldr (fun k acc => acc ^^ v.getLsbD k) false) := by
  rw [← BitVec.toNat_inj, par15_toNat, BitVec.toNat_ofBool]
  exact countP_mod_two_eq_xor v.getLsbD (List.range 15)

/-- PAR15 is linear (R68 (d)). -/
theorem par15_xor (v v' : Payload) : par15 (v ^^^ v') = par15 v ^^^ par15 v' := by
  rw [← BitVec.toNat_inj, par15_toNat, popcount_xor_mod_two, BitVec.toNat_xor, par15_toNat, par15_toNat]
  exact Nat.xor_mod_two_eq.symm.trans (Nat.xor_mod_two_pow (n := 1))

/-- UNPACK16 answers a record exactly for words with an even number of ones (R68 (a)). -/
theorem exists_unpack16_eq_ok_iff {w : Word16} : (∃ r, unpack16 w = .ok r) ↔ popcount w % 2 = 0 := by
  rw [← parityOk_iff]
  cases h : parityOk w with
  | false => simp [unpack16_fail h]
  | true =>
    obtain ⟨r, -, hr, -⟩ := unpack16_pass h
    exact iff_of_true ⟨r, hr⟩ rfl

/-- UNPACK16 rejects exactly the words with an odd number of ones (R68 (a)). -/
theorem unpack16_eq_integrityError_iff {w : Word16} : unpack16 w = .error .integrityError ↔ popcount w % 2 = 1 := by
  rw [← Nat.mod_two_ne_zero, ne_eq, ← exists_unpack16_eq_ok_iff]
  obtain ⟨r, hr, -⟩ | hr := unpack16_decodedPick_or_integrityError w <;> simp [hr]

/-- Inverting the bits of a mask in a passing word leaves the mask's parity (R68 (b)). -/
theorem popcount_xor_of_unpack16_eq_ok {w : Word16} {r : Record16} (h : unpack16 w = .ok r) (mask : Word16) :
    popcount (w ^^^ mask) % 2 = popcount mask % 2 := by
  have hw := exists_unpack16_eq_ok_iff.1 ⟨r, h⟩
  rw [popcount_xor_mod_two]
  omega

/-- Settles O38. -/
theorem par15IsPopulationCountMod2 : Obligations.Par15IsPopulationCountMod2 :=
  fun v _ => ⟨par15 v, exec_par15_iff.2 rfl, par15_toNat v⟩

/-- Settles O39: the tree is the fold over bits 0 to 14, written out. -/
theorem par15IsXorTree : Obligations.Par15IsXorTree := by
  refine fun v _ => exec_par15_iff.2 ((par15_eq_xor v).trans ?_)
  simp only [List.range_succ, List.range_zero, List.foldr_append, List.foldr_cons, List.foldr_nil, Bool.false_xor]

/-- Settles O40: a passing word stays passing under an even mask, and fails under an odd one. -/
theorem parityDetectsOddErrorsOnly : Obligations.ParityDetectsOddErrorsOnly := by
  simp only [Obligations.ParityDetectsOddErrorsOnly, exec_unpack16_ok_iff, exec_unpack16_error_iff, exec_par15_iff]
  refine ⟨fun w _ => exists_unpack16_eq_ok_iff, fun w mask r _ h => ⟨fun heven => ?_, fun hodd => ?_⟩, ?_⟩
  · exact exists_unpack16_eq_ok_iff.2 ((popcount_xor_of_unpack16_eq_ok h mask).trans heven)
  · exact unpack16_eq_integrityError_iff.2 ((popcount_xor_of_unpack16_eq_ok h mask).trans hodd)
  · rintro v v' _ _ - rfl rfl
    exact par15_xor v v'

end Sys2Proof.Machine
end

section
/-! PACK16 and UNPACK16 (R69 to R74): what each leaves on the outputs, and what each makes of the other's answer. -/

namespace Sys2Proof.Machine

theorem exec_pack16_ok_iff {a b p d : Int} {w : Word16} {s : State} :
    exec (.pack16 a b p d) s = .next { s with out := some ⟨.pack16, .ok (.word16 w)⟩ } ↔ pack16 a b p d = .ok w :=
  (exec_eq_next_iff rfl).trans (map_eq_ok_iff fun _ _ => Value.word16.inj)

/-- PACK16 rejects exactly the operands outside a bound (R69, R85). -/
theorem pack16_eq_rangeError_iff {a b p d : Int} :
    pack16 a b p d = .error .rangeError ↔
      ¬ ((1 ≤ a ∧ a ≤ 6) ∧ (1 ≤ b ∧ b ≤ 6) ∧ (0 ≤ p ∧ p ≤ 6) ∧ (0 ≤ d ∧ d ≤ 127)) := by
  rw [← accepts16_iff, Bool.not_eq_true]
  cases h : accepts16 a b p d with
  | false => exact iff_of_true (pack16_reject h) rfl
  | true =>
    obtain ⟨w, _, hw, -⟩ := pack16_accept h
    simp [hw]

/-- The parity check compares bit 0 with the count of the upper fifteen bits (R71). -/
theorem parityOk_iff_payload (w : Word16) :
    parityOk w = true ↔ (List.range 15).countP (fun k => w.getLsbD (k + 1)) % 2 = w.toNat % 2 := by
  have hpayload : popcount (takeField w 1 15) = (List.range 15).countP fun k => w.getLsbD (k + 1) :=
    List.countP_congr fun k hk => by
      rw [takeField_getLsbD, decide_eq_true (List.mem_range.1 hk), Bool.true_and, Nat.add_comm]
  rw [parityOk, beq_iff_eq, ← BitVec.toNat_inj, par15_toNat, hpayload, takeField_toNat, pow_zero, Nat.div_one, pow_one]

/-- A record's fields as PACK16 takes them. -/
def Record16.operands (r : Record16) : Int × Int × Int × Int :=
  (r.roll1.toNat, r.roll2.toNat, r.pick.toNat, r.destination.toNat)

theorem Record16.operands_eq_iff {r : Record16} {a b p d : Int} :
    r.operands = (a, b, p, d) ↔
      (r.roll1.toNat : Int) = a ∧ (r.roll2.toNat : Int) = b ∧ (r.pick.toNat : Int) = p ∧
        (r.destination.toNat : Int) = d := by
  rw [operands, Prod.mk.injEq, Prod.mk.injEq, Prod.mk.injEq]

theorem Record16.operands_injective : Function.Injective Record16.operands := by
  rintro ⟨a, b, p, d⟩ ⟨a', b', p', d'⟩ h
  simp only [operands, Prod.mk.injEq, Int.natCast_inj, BitVec.toNat_inj] at h
  rwa [Record16.mk.injEq]

/-- A record UNPACK16 answers, field by field, with the code its pick stands for (R73). -/
theorem fields_of_unpack16 {w : Word16} {r : Record16} (h : unpack16 w = .ok r) :
    ∃ c : BitVec 2, r.roll1.toNat = w.toNat / 8192 ∧ r.roll2.toNat = w.toNat / 1024 % 8 ∧
      c.toNat = w.toNat / 256 % 4 ∧ r.destination.toNat = w.toNat / 2 % 128 ∧
      r.pick = pickdenorm c r.roll1 r.roll2 := by
  obtain ⟨r', c, hr', hfields⟩ := unpack16_pass ((parityOk_iff w).2 (exists_unpack16_eq_ok_iff.1 ⟨r, h⟩))
  obtain rfl := Except.ok.inj (hr'.symm.trans h)
  exact ⟨c, hfields⟩

/-- UNPACK16 of a packed word: all but the pick comes back, the pick as R66's table has it (R74 (a), (b)). -/
theorem unpack16_of_pack16 {a b p d : Int} {w : Word16} (h : pack16 a b p d = .ok w) :
    ∃ r, unpack16 w = .ok r ∧ r.operands = (a, b, returnedPick a b p, d) := by
  obtain ⟨haccepts, hparity, hval⟩ := pack16_eq_ok_iff.1 h
  obtain ⟨ha, hb, hp, hd⟩ := accepts16_iff.1 haccepts
  obtain ⟨r, c, hr, hroll1, hroll2, hc, hdest, hpick⟩ := unpack16_pass hparity
  have hcode : (pickCode a b p).toNat < 4 := (pickCode a b p).isLt
  obtain rfl : (r.roll1.toNat : Int) = a := by omega
  obtain rfl : (r.roll2.toNat : Int) = b := by omega
  obtain rfl : c = pickCode r.roll1.toNat r.roll2.toNat p := by rw [← BitVec.toNat_inj]; omega
  refine ⟨r, hr, Record16.operands_eq_iff.2 ⟨rfl, rfl, ?_, by omega⟩⟩
  rw [hpick, pickdenorm_pickCode_toNat hp]

/-- Two packed words are equal exactly when rolls, destination and code are (R70). -/
theorem pack16_eq_iff {a b p d a' b' p' d' : Int} {w w' : Word16} (h : pack16 a b p d = .ok w)
    (h' : pack16 a' b' p' d' = .ok w') :
    w = w' ↔ a = a' ∧ b = b' ∧ d = d' ∧ ((pickCode a b p).toNat : Int) = (pickCode a' b' p').toNat := by
  obtain ⟨haccepts, hparity, hval⟩ := pack16_eq_ok_iff.1 h
  obtain ⟨haccepts', hparity', hval'⟩ := pack16_eq_ok_iff.1 h'
  obtain ⟨ha, hb, hp, hd⟩ := accepts16_iff.1 haccepts
  obtain ⟨ha', hb', hp', hd'⟩ := accepts16_iff.1 haccepts'
  have hcode : (pickCode a b p).toNat < 4 := (pickCode a b p).isLt
  have hcode' : (pickCode a' b' p').toNat < 4 := (pickCode a' b' p').isLt
  constructor
  · rintro rfl
    omega
  · rintro ⟨rfl, rfl, rfl, heq⟩
    exact eq_of_parityOk hparity hparity' (by omega)

/-- On picks that are 0, a roll or 3 PACK16 is injective (R70). -/
theorem pack16_injective {a b p d a' b' p' d' : Int} {w : Word16} (h : pack16 a b p d = .ok w)
    (h' : pack16 a' b' p' d' = .ok w) (hp : p = 0 ∨ p = a ∨ p = b ∨ p = 3)
    (hp' : p' = 0 ∨ p' = a' ∨ p' = b' ∨ p' = 3) : a = a' ∧ b = b' ∧ p = p' ∧ d = d' := by
  obtain ⟨r, hr, hfields⟩ := unpack16_of_pack16 h
  obtain ⟨r', hr', hfields'⟩ := unpack16_of_pack16 h'
  obtain rfl := Except.ok.inj (hr.symm.trans hr')
  rw [hfields, returnedPick, if_pos hp, returnedPick, if_pos hp'] at hfields'
  simpa only [Prod.mk.injEq] using hfields'

/-- Of a record UNPACK16 answers only a roll of 0 or 7 is outside PACK16's bounds; its pick never is (R74 (c)). -/
theorem accepts16_of_unpack16_iff {w : Word16} {r : Record16} (h : unpack16 w = .ok r) :
    accepts16 r.roll1.toNat r.roll2.toNat r.pick.toNat r.destination.toNat = true ↔
      ¬ (r.roll1 = 0#3 ∨ r.roll1 = 7#3 ∨ r.roll2 = 0#3 ∨ r.roll2 = 7#3) := by
  obtain ⟨c, -, -, -, -, hpick⟩ := fields_of_unpack16 h
  have hroll1 : r.roll1.toNat < 8 := r.roll1.isLt
  have hroll2 : r.roll2.toNat < 8 := r.roll2.isLt
  have hdest : r.destination.toNat < 128 := r.destination.isLt
  have hcases := pickdenorm_cases c r.roll1 r.roll2
  rw [← hpick] at hcases
  simp only [← BitVec.toNat_inj, BitVec.toNat_ofNat] at hcases ⊢
  rw [accepts16_iff]
  omega

/-- Settles O42. -/
theorem pack16PacksOrRejects : Obligations.Pack16PacksOrRejects := by
  refine fun a b p d s => ⟨fun ha hb hp hd => ?_, fun hout => ?_⟩
  · obtain ⟨w, q, hw, hparity, hval⟩ := pack16_accept (accepts16_iff.2 ⟨ha, hb, hp, hd⟩)
    have hq : q.toNat < 2 := q.isLt
    have hcount := (parityOk_iff_payload w).1 hparity
    refine ⟨w, exec_pack16_ok_iff.2 hw, ?_⟩
    rw [← pickCode_toNat, hcount]
    omega
  · exact (exec_eq_next_iff rfl).2 (map_eq_error_iff.2 (pack16_eq_rangeError_iff.2 hout))

/-- Settles O43: `pack16_eq_iff` and `pack16_injective`; the two tuples share code 0, which a pick of 4 has by D11. -/
theorem pack16CollidesExactlyOnEqualCodes : Obligations.Pack16CollidesExactlyOnEqualCodes := by
  simp only [Obligations.Pack16CollidesExactlyOnEqualCodes, exec_pack16_ok_iff, ← pickCode_toNat]
  refine ⟨fun a b p d a' b' p' d' w w' _ h h' => ⟨pack16_eq_iff h h', ?_⟩, fun _ => ⟨by decide, by decide⟩⟩
  rintro hp hp' rfl
  exact pack16_injective h h' hp hp'

/-- Settles O45. -/
theorem unpack16ChecksThenReturnsFields : Obligations.Unpack16ChecksThenReturnsFields := by
  simp only [Obligations.Unpack16ChecksThenReturnsFields, exec_unpack16_ok_iff, exec_unpack16_error_iff, ne_eq,
    ← parityOk_iff_payload, Bool.not_eq_true]
  refine fun w _ => ⟨fun hparity => ?_, unpack16_fail⟩
  obtain ⟨r, c, hr, hroll1, hroll2, hc, hdest, hpick⟩ := unpack16_pass hparity
  exact ⟨r, hr, hroll1, hroll2, hdest, by rw [hpick, pickdenorm_toNat, hc, hroll1, hroll2]⟩

/-- Settles O46: the table is `returnedPick`. -/
theorem unpack16OfPack16 : Obligations.Unpack16OfPack16 := by
  simp only [Obligations.Unpack16OfPack16, exec_unpack16_ok_iff, exec_pack16_ok_iff]
  intro a b p d w _ h
  obtain ⟨haccepts, -⟩ := pack16_eq_ok_iff.1 h
  obtain ⟨-, -, hp, -⟩ := accepts16_iff.1 haccepts
  obtain ⟨r, hr, hfields⟩ := unpack16_of_pack16 h
  obtain ⟨ha, hb, hpick, hd⟩ := Record16.operands_eq_iff.1 hfields
  exact ⟨r, hr, ha, hb, hd, hpick ▸ returnedPick_eq_self_iff hp, hpick⟩

/-- Packing again gives the word itself exactly when its code is the one PICKNORM gives the decoded pick (R74 (c)). -/
theorem pack16_unpack16_eq_iff {w w' : Word16} {r : Record16} (h : unpack16 w = .ok r)
    (h' : pack16 r.roll1.toNat r.roll2.toNat r.pick.toNat r.destination.toNat = .ok w') :
    w' = w ↔ ¬ ((w.toNat / 256 % 4 = 2 ∧ r.roll1 = r.roll2) ∨
      (w.toNat / 256 % 4 = 3 ∧ (r.roll1 = 3#3 ∨ r.roll2 = 3#3))) := by
  obtain ⟨c, hroll1, hroll2, hc, hdest, hpick⟩ := fields_of_unpack16 h
  obtain ⟨haccepts, hparity', hval'⟩ := pack16_eq_ok_iff.1 h'
  obtain ⟨ha, hb, -⟩ := accepts16_iff.1 haccepts
  have hparity := (parityOk_iff w).2 (exists_unpack16_eq_ok_iff.1 ⟨r, h⟩)
  rw [← hc, ← pickCode_pickdenorm_eq_iff c (by omega) (by omega), ← hpick]
  constructor
  · rintro rfl
    omega
  · intro hcode
    exact eq_of_parityOk hparity' hparity (by omega)

/-- What PACK16 makes of an unpacked record unpacks to that record again (R74 (c)). -/
theorem unpack16_pack16_unpack16 {w w' : Word16} {r : Record16} (h : unpack16 w = .ok r)
    (h' : pack16 r.roll1.toNat r.roll2.toNat r.pick.toNat r.destination.toNat = .ok w') : unpack16 w' = .ok r := by
  obtain ⟨c, -, -, -, -, hpick⟩ := fields_of_unpack16 h
  have hkept : returnedPick r.roll1.toNat r.roll2.toNat r.pick.toNat = r.pick.toNat := by
    have hcases := pickdenorm_cases c r.roll1 r.roll2
    rw [← hpick] at hcases
    simp only [← BitVec.toNat_inj, BitVec.toNat_ofNat] at hcases
    exact if_pos (by omega)
  obtain ⟨r', hr', hfields⟩ := unpack16_of_pack16 h'
  rw [hkept] at hfields
  rw [hr', Record16.operands_injective hfields]

/-- Settles O47. -/
theorem pack16OfUnpack16 : Obligations.Pack16OfUnpack16 := by
  intro w r s hexec
  have h := exec_unpack16_ok_iff.1 hexec
  rw [← accepts16_of_unpack16_iff h]
  refine ⟨fun hroll => ?_, fun haccepts => ?_⟩
  · have hreject := Bool.eq_false_iff.2 fun haccepts => (accepts16_of_unpack16_iff h).1 haccepts hroll
    exact (exec_eq_next_iff rfl).2 (map_eq_error_iff.2 (pack16_reject hreject))
  · obtain ⟨w', _, hw', -⟩ := pack16_accept haccepts
    exact ⟨w', exec_pack16_ok_iff.2 hw', pack16_unpack16_eq_iff h hw',
      exec_unpack16_ok_iff.2 (unpack16_pack16_unpack16 h hw')⟩

end Sys2Proof.Machine
end

section
/-! ENCODE16 and DECODE16 (R75 to R78): a token is its word's four digits. -/

namespace Sys2Proof.Machine

theorem exec_encode16_ok_iff {a b p d : Int} {token : Chars} {s : State} :
    exec (.encode16 a b p d) s = .next { s with out := some ⟨.encode16, .ok (.chars token)⟩ } ↔
      encode16 a b p d = .ok token :=
  (exec_eq_next_iff rfl).trans (map_eq_ok_iff fun _ _ => Value.chars.inj)

theorem exec_decode16_ok_iff {chars : Chars} {r : Record16} {s : State} :
    exec (.decode16 chars) s = .next { s with out := some ⟨.decode16, .ok (.record16 r)⟩ } ↔
      decode16 Config.lowerHexOk chars = .ok r :=
  (exec_eq_next_iff rfl).trans (map_eq_ok_iff fun _ _ => Value.record16.inj)

theorem exec_decode16_error_iff {chars : Chars} {e : ErrorKind} {s : State} :
    exec (.decode16 chars) s = .next { s with out := some ⟨.decode16, .error e⟩ } ↔
      decode16 Config.lowerHexOk chars = .error e :=
  (exec_eq_next_iff rfl).trans map_eq_error_iff

/-- ENCODE16's token is the rendered word PACK16 answers (R75). -/
theorem encode16_eq_ok_iff {a b p d : Int} {token : Chars} :
    encode16 a b p d = .ok token ↔ ∃ w, pack16 a b p d = .ok w ∧ hexr4 w = token :=
  exceptMap_eq_ok_iff

/-- ENCODE16 rejects exactly when PACK16 does (R75). -/
theorem encode16_eq_rangeError_iff {a b p d : Int} :
    encode16 a b p d = .error .rangeError ↔ pack16 a b p d = .error .rangeError := by
  rw [encode16]
  cases pack16 a b p d <;> simp [Except.map]

/-- DECODE16 of text that parses is UNPACK16 of its word, errors included (R76). -/
theorem decode16_of_hexp4 {lower : Bool} {chars : Chars} {w : Word16} (h : hexp4 lower chars = .ok w) :
    decode16 lower chars = unpack16 w := by
  rw [decode16, h, Except.bind]

/-- DECODE16 of text that does not parse is a FormatError, before any parity check (R76, R89). -/
theorem decode16_of_bad_text {lower : Bool} {chars : Chars}
    (h : chars.length ≠ 4 ∨ ∃ c ∈ chars, hexval lower c = none) : decode16 lower chars = .error .formatError := by
  rw [decode16, hexp4_eq_formatError_iff.2 h, Except.bind]

/-- The mask that inverts one bit has one bit set. -/
theorem popcount_single_bit {n b : Nat} (h : b < n) : popcount (1#n <<< b) = 1 := by
  have hbit : (1#n <<< b).getLsbD = fun k => k == b := by
    funext k
    rw [← BitVec.twoPow_eq, BitVec.getLsbD_twoPow, decide_eq_true h, Bool.true_and]
    exact decide_eq_decide.2 eq_comm
  rw [popcount, hbit]
  exact List.count_eq_one_of_mem List.nodup_range (List.mem_range.2 h)

/-- Settles O49: PACK16's word, its digits by their place values. -/
theorem encode16RendersPackedWord : Obligations.Encode16RendersPackedWord := by
  refine fun a b p d s => ⟨fun ha hb hp hd => ?_, fun hout => ?_⟩
  · obtain ⟨w, _, hw, -⟩ := pack16_accept (accepts16_iff.2 ⟨ha, hb, hp, hd⟩)
    exact ⟨w, exec_pack16_ok_iff.2 hw, exec_encode16_ok_iff.2 (encode16_eq_ok_iff.2 ⟨w, hw, hexr4_eq_digits w⟩)⟩
  · have hreject := encode16_eq_rangeError_iff.2 (pack16_eq_rangeError_iff.2 hout)
    exact (exec_eq_next_iff rfl).2 (map_eq_error_iff.2 hreject)

/-- Settles O50. -/
theorem decode16ParsesThenUnpacks : Obligations.Decode16ParsesThenUnpacks := by
  refine ⟨fun s c0 c1 c2 c3 v0 v1 v2 v3 h0 h1 h2 h3 => ?_, fun s chars hbad => ?_⟩
  · obtain ⟨w, hw, hval⟩ := hexp4_digits_toNat h0 h1 h2 h3
    refine ⟨w, resultOf (.unpack16 w), hval, (exec_eq_next_iff rfl).2 rfl, (exec_eq_next_iff rfl).2 ?_⟩
    rw [resultOf, resultOf, decode16_of_hexp4 hw]
  · exact exec_decode16_error_iff.2 (decode16_of_bad_text hbad)

/-- Settles O51: the token parses to the packed word, which UNPACK16 takes apart. -/
theorem decode16OfEncode16 : Obligations.Decode16OfEncode16 := by
  intro a b p d s s' ha hb hp hd
  obtain ⟨w, _, hw, -⟩ := pack16_accept (accepts16_iff.2 ⟨ha, hb, hp, hd⟩)
  obtain ⟨r, hr, hfields⟩ := unpack16_of_pack16 hw
  obtain ⟨hroll1, hroll2, hpick, hdest⟩ := Record16.operands_eq_iff.1 hfields
  have hdecode : decode16 Config.lowerHexOk (hexr4 w) = .ok r := (decode16_of_hexp4 (hexp4_hexr4 _ w)).trans hr
  exact ⟨hexr4 w, r, exec_encode16_ok_iff.2 (encode16_eq_ok_iff.2 ⟨w, hw, rfl⟩), exec_decode16_ok_iff.2 hdecode,
    hroll1, hroll2, hdest, hpick ▸ returnedPick_eq_self_iff hp⟩

/-- A passing word with one bit inverted fails, and so does its token (R78). -/
theorem decode16_of_inverted_bit {lower : Bool} {w : Word16} {r : Record16} {b : Nat} (h : unpack16 w = .ok r)
    (hb : b < 16) : decode16 lower (hexr4 (w ^^^ (1#16 <<< b))) = .error .integrityError := by
  rw [decode16_of_hexp4 (hexp4_hexr4 lower _), unpack16_eq_integrityError_iff, popcount_xor_of_unpack16_eq_ok h,
    popcount_single_bit hb]

/-- Settles O52; the three texts are evaluated, and hold no lowercase letter, so `LOWER_HEX_OK` may be either. -/
theorem singleBitErrorsAreDetected : Obligations.SingleBitErrorsAreDetected := by
  simp only [Obligations.SingleBitErrorsAreDetected, exec_unpack16_ok_iff, exec_hexr4_iff, exec_decode16_ok_iff,
    exec_decode16_error_iff]
  constructor
  · rintro w b r _ - h hb rfl
    exact decode16_of_inverted_bit h hb
  · intro _
    generalize Config.lowerHexOk = lower
    revert lower
    decide

end Sys2Proof.Machine
end

section
/-! Applications presented one after another (R92, R109): each runs in turn and leaves only its outputs, which the next
one does not read. -/

namespace Sys2Proof.Machine

theorem run_succ_of_step {M : Host.Core} {s t : M.State} (n : Nat) (h : M.step s = .next t) :
    M.run (n + 1) s = M.run n t := by
  rw [Host.Core.run, h]

/-- The first application presented runs, and the run goes on with what is presented after it. -/
theorem run_succ_of_presented (n : Nat) (i : Instr) (rest : List Byte) (s : State) :
    core.run (n + 1) { s with inputs := encode i ++ rest } =
      core.run n { s with inputs := rest, out := some ⟨i.op, resultOf i⟩ } :=
  run_succ_of_step (M := core) n ((step_of_decode (decode_encode i rest)).trans (exec_eq i { s with inputs := rest }))

/-- Presented after any others, the last application runs as it would alone, whatever the others answered. -/
theorem run_of_presented (before : List Instr) (i : Instr) (tail : List Byte) (s : State) :
    core.run (before.length + 1) { s with inputs := (before ++ [i]).flatMap encode ++ tail } =
      exec i { s with inputs := tail } := by
  induction before generalizing s with
  | nil =>
    rw [List.nil_append, List.flatMap_singleton, exec_eq]
    exact run_succ_of_presented 0 i tail s
  | cons j before ih =>
    rw [List.length_cons, List.cons_append, List.flatMap_cons, List.append_assoc, run_succ_of_presented]
    exact (ih { s with out := some ⟨j.op, resultOf j⟩ }).trans (exec_congr_inputs i rfl)

/-- Settles O7. -/
theorem presentedApplicationsRunInTurn : Obligations.PresentedApplicationsRunInTurn :=
  fun before i tail s _ h => (run_of_presented before i tail s).trans h

end Sys2Proof.Machine
end

section
/-! When each error is the result (R85 to R88): the table of R88 says which units can raise it, and each such unit's own
rule says on which operands. -/

namespace Sys2Proof.Machine

/-! ## The table of R88 -/

/-- An operation's error is in its row of the table of R88. -/
theorem mayRaise_of_resultOf_eq_error {i : Instr} {e : ErrorKind} (h : resultOf i = .error e) :
    mayRaise i.op e = true := by
  have hlegal := resultOf_legal i
  rwa [h] at hlegal

/-- No operation answers an error outside its row of the table of R88. -/
theorem resultOf_eq_error_iff_false {i : Instr} {e : ErrorKind} (h : mayRaise i.op e = false) :
    resultOf i = .error e ↔ False := by
  refine iff_false_intro fun herror => ?_
  have hraise := mayRaise_of_resultOf_eq_error herror
  rw [h] at hraise
  cases hraise

theorem mayRaise_rangeError_iff {op : Op} :
    mayRaise op .rangeError = true ↔ op ∈ [Op.pack12, .pack16, .encode12, .encode16] := by
  cases op <;> decide

theorem mayRaise_formatError_iff {op : Op} :
    mayRaise op .formatError = true ↔ op ∈ [Op.hexp3, .hexp4, .decode12, .decodebatch12, .decode16] := by
  cases op <;> decide

theorem mayRaise_integrityError_iff {op : Op} :
    mayRaise op .integrityError = true ↔ op ∈ [Op.unpack16, .decode16] := by
  cases op <;> decide

/-! ## The results of the 16-bit decoders -/

/-- UNPACK16 rejects exactly the words whose bit 0 is not the parity of their upper fifteen bits (R73, R87). -/
theorem unpack16_eq_integrityError_iff_payload {w : Word16} :
    unpack16 w = .error .integrityError ↔
      (List.range 15).countP (fun k => w.getLsbD (k + 1)) % 2 ≠ w.toNat % 2 := by
  rw [ne_eq, ← parityOk_iff_payload, Bool.not_eq_true]
  cases h : parityOk w with
  | false => exact iff_of_true (unpack16_fail h) rfl
  | true =>
    obtain ⟨r, -, hr, -⟩ := unpack16_pass h
    simp [hr]

/-- DECODE16 answers a FormatError exactly for the texts HEXP4 rejects: UNPACK16 has none (R76, R86). -/
theorem decode16_eq_formatError_iff {lower : Bool} {chars : Chars} :
    decode16 lower chars = .error .formatError ↔ chars.length ≠ 4 ∨ ∃ c ∈ chars, hexval lower c = none := by
  rw [← hexp4_eq_formatError_iff]
  obtain ⟨w, hw⟩ | hbad := hexp4_ok_or_formatError lower chars
  · rw [decode16_of_hexp4 hw, hw]
    obtain ⟨r, hr, -⟩ | hr := unpack16_decodedPick_or_integrityError w <;> simp [hr]
  · exact iff_of_true (decode16_of_bad_text (hexp4_eq_formatError_iff.1 hbad)) hbad

/-- DECODE16 answers an IntegrityError exactly when HEXP4 parses a word that UNPACK16 rejects (R76, R87). -/
theorem decode16_eq_integrityError_iff {lower : Bool} {chars : Chars} :
    decode16 lower chars = .error .integrityError ↔
      ∃ w, hexp4 lower chars = .ok w ∧ unpack16 w = .error .integrityError := by
  obtain ⟨w, hw⟩ | hbad := hexp4_ok_or_formatError lower chars
  · simp [decode16_of_hexp4 hw, hw]
  · simp [decode16_of_bad_text (hexp4_eq_formatError_iff.1 hbad), hbad]

/-! ## Each error, exactly -/

/-- Settles O13: the four encode operations by their bounds, the others by the table of R88. -/
theorem rangeErrorExactlyOutOfBounds : Obligations.RangeErrorExactlyOutOfBounds := by
  refine fun i s => (exec_eq_next_iff rfl).trans ?_
  cases i with
  | pack12 p d t => exact map_eq_error_iff.trans pack12_eq_rangeError_iff
  | encode12 p d t => exact map_eq_error_iff.trans (encode12_eq_rangeError_iff.trans pack12_eq_rangeError_iff)
  | pack16 a b p d => exact map_eq_error_iff.trans pack16_eq_rangeError_iff
  | encode16 a b p d => exact map_eq_error_iff.trans (encode16_eq_rangeError_iff.trans pack16_eq_rangeError_iff)
  | _ => exact resultOf_eq_error_iff_false rfl

/-- Settles O14: the five operations on text by what they reject, the others by the table of R88. -/
theorem formatErrorExactlyMalformedText : Obligations.FormatErrorExactlyMalformedText := by
  refine fun i s => (exec_eq_next_iff rfl).trans ?_
  cases i with
  | hexp3 c => exact map_eq_error_iff.trans hexp3_eq_formatError_iff
  | hexp4 c => exact map_eq_error_iff.trans hexp4_eq_formatError_iff
  | decode12 c => exact map_eq_error_iff.trans decode12_eq_formatError_iff
  | decodebatch12 c => exact map_eq_error_iff.trans decodebatch12_eq_formatError_iff
  | decode16 c => exact map_eq_error_iff.trans decode16_eq_formatError_iff
  | _ => exact resultOf_eq_error_iff_false rfl

/-- Settles O15: UNPACK16 by the parity bit, DECODE16 by the word HEXP4 parses, the others by the table of R88. -/
theorem integrityErrorExactlyParityMismatch : Obligations.IntegrityErrorExactlyParityMismatch := by
  refine fun i s => (exec_eq_next_iff rfl).trans ?_
  cases i with
  | unpack16 w => exact map_eq_error_iff.trans unpack16_eq_integrityError_iff_payload
  | decode16 c =>
    refine map_eq_error_iff.trans (decode16_eq_integrityError_iff.trans (exists_congr fun w => ?_))
    exact and_congr exec_hexp4_ok_iff.symm unpack16_eq_integrityError_iff_payload
  | _ => exact resultOf_eq_error_iff_false rfl

/-! ## Every error of the table can be reported -/

/-- A pick of 7 is outside the bounds of R55, a roll of 0 outside those of R69. -/
theorem exists_exec_rangeError {op : Op} (h : op ∈ [Op.pack12, .pack16, .encode12, .encode16]) :
    ∃ i : Instr, i.op = op ∧ ∀ s : State, exec i s = .next { s with out := some ⟨op, .error .rangeError⟩ } := by
  simp only [List.mem_cons, List.not_mem_nil, or_false] at h
  obtain rfl | rfl | rfl | rfl := h
  · exact ⟨.pack12 7 0 0, rfl, fun s => (rangeErrorExactlyOutOfBounds _ s).2 (by decide)⟩
  · exact ⟨.pack16 0 1 0 0, rfl, fun s => (rangeErrorExactlyOutOfBounds _ s).2 (by decide)⟩
  · exact ⟨.encode12 7 0 0, rfl, fun s => (rangeErrorExactlyOutOfBounds _ s).2 (by decide)⟩
  · exact ⟨.encode16 0 1 0 0, rfl, fun s => (rangeErrorExactlyOutOfBounds _ s).2 (by decide)⟩

/-- One character is too short a text for every operation on text. -/
theorem exists_exec_formatError {op : Op} (h : op ∈ [Op.hexp3, .hexp4, .decode12, .decodebatch12, .decode16]) :
    ∃ i : Instr, i.op = op ∧ ∀ s : State, exec i s = .next { s with out := some ⟨op, .error .formatError⟩ } := by
  simp only [List.mem_cons, List.not_mem_nil, or_false] at h
  obtain rfl | rfl | rfl | rfl | rfl := h
  · exact ⟨.hexp3 [0x30#8], rfl, fun s => (formatErrorExactlyMalformedText _ s).2 (.inl (by decide))⟩
  · exact ⟨.hexp4 [0x30#8], rfl, fun s => (formatErrorExactlyMalformedText _ s).2 (.inl (by decide))⟩
  · exact ⟨.decode12 [0x30#8], rfl, fun s => (formatErrorExactlyMalformedText _ s).2 (.inl (by decide))⟩
  · exact ⟨.decodebatch12 [0x30#8], rfl, fun s => (formatErrorExactlyMalformedText _ s).2 (.inl (by decide))⟩
  · exact ⟨.decode16 [0x30#8], rfl, fun s => (formatErrorExactlyMalformedText _ s).2 (.inl (by decide))⟩

/-- The word 1, and its token, hold a set parity bit beside a payload with no ones. -/
theorem exists_exec_integrityError {op : Op} (h : op ∈ [Op.unpack16, .decode16]) :
    ∃ i : Instr, i.op = op ∧ ∀ s : State, exec i s = .next { s with out := some ⟨op, .error .integrityError⟩ } := by
  simp only [List.mem_cons, List.not_mem_nil, or_false] at h
  obtain rfl | rfl := h
  · exact ⟨.unpack16 1#16, rfl, fun _ => exec_unpack16_error_iff.2 (unpack16_eq_integrityError_iff.2 (by decide))⟩
  · exact ⟨.decode16 (hexr4 1#16), rfl, fun s => (integrityErrorExactlyParityMismatch _ s).2
      ⟨1#16, exec_hexp4_ok_iff.2 (hexp4_hexr4 _ _), by decide⟩⟩

/-- Settles O11: the table of R88 from both sides; `err` and its codes are read off the definitions. -/
theorem errorTableOfOperations : Obligations.ErrorTableOfOperations := by
  refine ⟨fun i s t e hexec hout => ?_, fun op => ⟨fun h => ?_, fun h => ?_, fun h => ?_⟩, fun _ _ _ => rfl,
    fun _ _ => ⟨rfl, rfl, rfl⟩, rfl, rfl, rfl, rfl⟩
  · obtain rfl := exec_next hexec
    have hraise : mayRaise i.op e = true := mayRaise_of_resultOf_eq_error (by simpa using hout)
    refine ⟨?_, ?_, ?_⟩ <;> rintro rfl
    · exact mayRaise_rangeError_iff.1 hraise
    · exact mayRaise_formatError_iff.1 hraise
    · exact mayRaise_integrityError_iff.1 hraise
  · exact exists_exec_rangeError h
  · exact exists_exec_formatError h
  · exact exists_exec_integrityError h

end Sys2Proof.Machine
end

section
/-! A step without an application of definite operands has no result (70_reset_and_hazards.md R101; U4, log entry 4). -/

namespace Sys2Proof.Machine

/-- The decoder's reason where no unit number is presented. -/
theorem decode_nil : decode [] = .error .nothingPresented := rfl

/-- With nothing presented a step is refused: the decoder's error on no characters, handed on. -/
theorem step_of_inputs_nil {s : State} (h : s.inputs = []) : step s = .refused (.notPresented .nothingPresented) :=
  step_of_decode_error (h ▸ decode_nil)

/-- Settles O2: a step hands on the decoder's reason, and on no characters that reason is `nothingPresented`. -/
theorem stepRefusesWithoutApplication : Obligations.StepRefusesWithoutApplication :=
  ⟨fun _ _ h => step_of_decode_error h, fun _ h => step_of_inputs_nil h⟩

end Sys2Proof.Machine
end

section
/-! Applications written out by hand (30_encoding.md sections 1, 2 and 5): the characters are those the layout gives. -/

namespace Sys2Proof

/-- What an application is written as, with nothing after it, is read as that application. -/
theorem decode_of_encode_eq {i : Instr} {bytes : List Byte} (h : encode i = bytes) : decode bytes = .ok (i, []) := by
  rw [← List.append_nil bytes, ← h, decode_encode]

/-- Settles O3: each sequence is what its application is written as, so it is read back as that application. -/
theorem writtenOutCharactersDecode : Obligations.WrittenOutCharactersDecode := by
  refine ⟨?hexr3, ?decode12, ?pack12, ?pack16, ?pack16NegativeWide, ?pickdenorm, ?unpack16⟩
  all_goals exact decode_of_encode_eq (by decide)

end Sys2Proof
end
